-- ==== Sys2Proof/Word.lean ====
section
/-!
DEFINITION. The word types of the machine (spec/00_scope.md R4, R5, R6; spec/30_encoding.md R50).
-/

namespace Sys2Proof

/-- A byte: 8 bits, bit 0 the least significant (R5). -/
abbrev Byte := BitVec 8

/-- A register value: a 64-bit vector (`XLEN = 64`, R4, R6). -/
abbrev Word := BitVec 64

/-- The 32-bit `imm` field of a slot (R50). -/
abbrev Imm := BitVec 32

/-- The 16-bit `offset` field of a slot (R50). -/
abbrev Off := BitVec 16

/-- A 4-bit register field of a slot: 0 to 15 (R13, R50). -/
abbrev RegField := BitVec 4

/-- A register that exists: 0 to 10 (`NREGS = 11`, R4, R11). -/
abbrev Reg := Fin 11

end Sys2Proof
end

