-- ==== Sys2Proof/Config.lean ====
section
/-!
DEFINITION. The implementation parameters of spec/00_scope.md R4, and the one collaborator whose behaviour
the spec leaves to the host (spec/44_branch_call_exit.md R195). The two rows that R4 marks OPEN, `PROG_MAX` and
`call_resolver`, are arguments of `Machine.load`.
-/

namespace Sys2Proof

/-- `MEMORY_SIZE`: bytes of linear memory (R4, R30). -/
abbrev Config.memorySize : Nat := 65536

/-- `INSN_BYTES`: bytes of one instruction slot (R4, R50). -/
abbrev Config.insnBytes : Nat := 8

/-- `DIVMOD_SIGNED`: whether `DIV` and `MOD` are signed (R4, R101; spec/90_conflicts.md C3, decision D4).
UNVERIFIED (the spec's own decision, not the document's), unsafe: log entry 6. -/
def Config.divmodSigned : Bool := true

/-- What the host's call resolver answers for an id, given the eleven register values (R195, decision D15):
a pure total function, so that the machine stays deterministic. It has no body: a claim holds for every resolver.
For which ids it is consulted is `State.resolver`. DESIGN CHOICE, unsafe: log entry 3. -/
opaque Config.callResult : Imm → Vector Word 11 → Word

end Sys2Proof
end

