-- ==== Sys2Proof/Syntax.lean ====
section
/-!
DEFINITION. The syntax: instruction slots with their five fields (spec/30_encoding.md R50), access widths
(spec/20_memory.md R37), and the instructions, one constructor per row of spec/opcode_table.json (R56).
-/

namespace Sys2Proof

/-- One slot of the program store, the spec's decoded Instruction: the five fields that cover its 64 bits (R50, R53).
`dest` and `src` can hold 0 to 15 here (R13); see `WellFormed.lean`. -/
structure Slot where
  opcode : Byte
  dest   : RegField
  src    : RegField
  offset : Off
  imm    : Imm
  deriving DecidableEq, Repr

/-- The width of a memory access: `B`, `H`, `W`, `DW` (R37). -/
inductive Width where
  | byte
  | half
  | word
  | dword
  deriving DecidableEq, Repr

/-- An instruction, holding the fields its rule uses (R59: the others are ignored); register operands are registers
that exist, as R75 guarantees before any instruction's rule runs. -/
inductive Instr where
  -- ALU64 family (spec/41_alu64.md)
  /-- `MOV_IMM`, R103. -/
  | movImm (dest : Reg) (imm : Imm)
  /-- `MOV_REG`, R104. -/
  | movReg (dest : Reg) (src : Reg)
  /-- `ADD_IMM`, R105. -/
  | addImm (dest : Reg) (imm : Imm)
  /-- `ADD_REG`, R106. -/
  | addReg (dest : Reg) (src : Reg)
  /-- `SUB_IMM`, R107. -/
  | subImm (dest : Reg) (imm : Imm)
  /-- `SUB_REG`, R108. -/
  | subReg (dest : Reg) (src : Reg)
  /-- `MUL_IMM`, R109. -/
  | mulImm (dest : Reg) (imm : Imm)
  /-- `MUL_REG`, R110. -/
  | mulReg (dest : Reg) (src : Reg)
  /-- `DIV_IMM`, R111. -/
  | divImm (dest : Reg) (imm : Imm)
  /-- `DIV_REG`, R112. -/
  | divReg (dest : Reg) (src : Reg)
  /-- `OR_IMM`, R113. -/
  | orImm (dest : Reg) (imm : Imm)
  /-- `OR_REG`, R114. -/
  | orReg (dest : Reg) (src : Reg)
  /-- `AND_IMM`, R115. -/
  | andImm (dest : Reg) (imm : Imm)
  /-- `AND_REG`, R116. -/
  | andReg (dest : Reg) (src : Reg)
  /-- `LSH_IMM`, R117. -/
  | lshImm (dest : Reg) (imm : Imm)
  /-- `LSH_REG`, R118. -/
  | lshReg (dest : Reg) (src : Reg)
  /-- `RSH_IMM`, R119. -/
  | rshImm (dest : Reg) (imm : Imm)
  /-- `RSH_REG`, R120. -/
  | rshReg (dest : Reg) (src : Reg)
  /-- `ARSH_IMM`, R121. -/
  | arshImm (dest : Reg) (imm : Imm)
  /-- `ARSH_REG`, R122. -/
  | arshReg (dest : Reg) (src : Reg)
  /-- `NEG_IMM`, R123. -/
  | negImm (dest : Reg)
  /-- `NEG_REG`, R124. -/
  | negReg (dest : Reg)
  /-- `MOD_IMM`, R125. -/
  | modImm (dest : Reg) (imm : Imm)
  /-- `MOD_REG`, R126. -/
  | modReg (dest : Reg) (src : Reg)
  /-- `XOR_IMM`, R127. -/
  | xorImm (dest : Reg) (imm : Imm)
  /-- `XOR_REG`, R128. -/
  | xorReg (dest : Reg) (src : Reg)
  -- Byteswap family (spec/42_byteswap.md)
  /-- `LE16`, R131. -/
  | le16 (dest : Reg)
  /-- `LE32`, R132. -/
  | le32 (dest : Reg)
  /-- `LE64`, R133. -/
  | le64 (dest : Reg)
  /-- `BE16`, R134. -/
  | be16 (dest : Reg)
  /-- `BE32`, R135. -/
  | be32 (dest : Reg)
  /-- `BE64`, R136. -/
  | be64 (dest : Reg)
  -- Memory family (spec/43_memory_ops.md)
  /-- `LDDW`, R141. -/
  | lddw (dest : Reg) (lo : Imm) (hi : Imm)
  /-- `LDABSB`, R143. -/
  | ldabsb (dest : Reg) (imm : Imm)
  /-- `LDABSH`, R144. -/
  | ldabsh (dest : Reg) (imm : Imm)
  /-- `LDABSW`, R145. -/
  | ldabsw (dest : Reg) (imm : Imm)
  /-- `LDABSDW`, R146. -/
  | ldabsdw (dest : Reg) (imm : Imm)
  /-- `LDINDB`, R147. -/
  | ldindb (dest : Reg) (src : Reg) (imm : Imm)
  /-- `LDINDH`, R148. -/
  | ldindh (dest : Reg) (src : Reg) (imm : Imm)
  /-- `LDINDW`, R149. -/
  | ldindw (dest : Reg) (src : Reg) (imm : Imm)
  /-- `LDINDDW`, R150. -/
  | ldinddw (dest : Reg) (src : Reg) (imm : Imm)
  /-- `LDXB`, R152. -/
  | ldxb (dest : Reg) (src : Reg) (offset : Off)
  /-- `LDXH`, R153. -/
  | ldxh (dest : Reg) (src : Reg) (offset : Off)
  /-- `LDXW`, R154. -/
  | ldxw (dest : Reg) (src : Reg) (offset : Off)
  /-- `LDXDW`, R155. -/
  | ldxdw (dest : Reg) (src : Reg) (offset : Off)
  /-- `STB`, R157. -/
  | stb (dest : Reg) (offset : Off) (imm : Imm)
  /-- `STH`, R158. -/
  | sth (dest : Reg) (offset : Off) (imm : Imm)
  /-- `STW`, R159. -/
  | stw (dest : Reg) (offset : Off) (imm : Imm)
  /-- `STDW`, R160. -/
  | stdw (dest : Reg) (offset : Off) (imm : Imm)
  /-- `STXB`, R162. -/
  | stxb (dest : Reg) (src : Reg) (offset : Off)
  /-- `STXH`, R163. -/
  | stxh (dest : Reg) (src : Reg) (offset : Off)
  /-- `STXW`, R164. -/
  | stxw (dest : Reg) (src : Reg) (offset : Off)
  /-- `STXDW`, R165. -/
  | stxdw (dest : Reg) (src : Reg) (offset : Off)
  -- Branch family (spec/44_branch_call_exit.md)
  /-- `JA`, R172. -/
  | ja (offset : Off)
  /-- `JEQ_IMM`, R173. -/
  | jeqImm (dest : Reg) (offset : Off) (imm : Imm)
  /-- `JEQ_REG`, R174. -/
  | jeqReg (dest : Reg) (src : Reg) (offset : Off)
  /-- `JGT_IMM`, R175. -/
  | jgtImm (dest : Reg) (offset : Off) (imm : Imm)
  /-- `JGT_REG`, R176. -/
  | jgtReg (dest : Reg) (src : Reg) (offset : Off)
  /-- `JGE_IMM`, R177. -/
  | jgeImm (dest : Reg) (offset : Off) (imm : Imm)
  /-- `JGE_REG`, R178. -/
  | jgeReg (dest : Reg) (src : Reg) (offset : Off)
  /-- `JLT_IMM`, R179. -/
  | jltImm (dest : Reg) (offset : Off) (imm : Imm)
  /-- `JLT_REG`, R180. -/
  | jltReg (dest : Reg) (src : Reg) (offset : Off)
  /-- `JLE_IMM`, R181. -/
  | jleImm (dest : Reg) (offset : Off) (imm : Imm)
  /-- `JLE_REG`, R182. -/
  | jleReg (dest : Reg) (src : Reg) (offset : Off)
  /-- `JSET_IMM`, R183. -/
  | jsetImm (dest : Reg) (offset : Off) (imm : Imm)
  /-- `JSET_REG`, R184. -/
  | jsetReg (dest : Reg) (src : Reg) (offset : Off)
  /-- `JNE_IMM`, R185. -/
  | jneImm (dest : Reg) (offset : Off) (imm : Imm)
  /-- `JNE_REG`, R186. -/
  | jneReg (dest : Reg) (src : Reg) (offset : Off)
  /-- `JSGT_IMM`, R187. -/
  | jsgtImm (dest : Reg) (offset : Off) (imm : Imm)
  /-- `JSGT_REG`, R188. -/
  | jsgtReg (dest : Reg) (src : Reg) (offset : Off)
  /-- `JSGE_IMM`, R189. -/
  | jsgeImm (dest : Reg) (offset : Off) (imm : Imm)
  /-- `JSGE_REG`, R190. -/
  | jsgeReg (dest : Reg) (src : Reg) (offset : Off)
  /-- `JSLT_IMM`, R191. -/
  | jsltImm (dest : Reg) (offset : Off) (imm : Imm)
  /-- `JSLT_REG`, R192. -/
  | jsltReg (dest : Reg) (src : Reg) (offset : Off)
  /-- `JSLE_IMM`, R193. -/
  | jsleImm (dest : Reg) (offset : Off) (imm : Imm)
  /-- `JSLE_REG`, R194. -/
  | jsleReg (dest : Reg) (src : Reg) (offset : Off)
  /-- `CALL`, R195. -/
  | call (imm : Imm)
  /-- `EXIT`, R196. -/
  | exit
  deriving DecidableEq, Repr

end Sys2Proof
end

