-- ==== Sys2Proof/WellFormed.lean ====
section
/-!
DEFINITION. Which slots are instructions: the checks the hardware makes at run time on the slot it is about to execute
(spec/40_execution_step.md R74, R75; spec/10_state.md R13), one decidable predicate for each.
An `Instr` needs no check of its own: its register operands are `Reg`, registers that exist.
-/

namespace Sys2Proof

/-- The 74 recognised opcode bytes in numeric order, written out as R56 lists them
(values `[from general knowledge]` but for `0xd4`: decision D1, log entry 7). -/
def recognisedOpcodes : List Byte :=
  [0x05, 0x07, 0x0f, 0x15, 0x17, 0x18, 0x1d, 0x1f, 0x20, 0x25, 0x27, 0x28, 0x2d, 0x2f, 0x30, 0x35, 0x37, 0x38, 0x3d] ++
  [0x3f, 0x40, 0x45, 0x47, 0x48, 0x4d, 0x4f, 0x50, 0x55, 0x57, 0x58, 0x5d, 0x5f, 0x61, 0x62, 0x63, 0x65, 0x67, 0x69] ++
  [0x6a, 0x6b, 0x6d, 0x6f, 0x71, 0x72, 0x73, 0x75, 0x77, 0x79, 0x7a, 0x7b, 0x7d, 0x7f, 0x85, 0x87, 0x8f, 0x95, 0x97] ++
  [0x9f, 0xa5, 0xa7, 0xad, 0xaf, 0xb5, 0xb7, 0xbd, 0xbf, 0xc5, 0xc7, 0xcd, 0xcf, 0xd4, 0xd5, 0xdc, 0xdd]

/-- R74, first test: the opcode byte is one of the 74 (R56, R57). -/
abbrev Slot.opcodeKnown (sl : Slot) : Prop := sl.opcode ∈ recognisedOpcodes

/-- R74, second test: a byteswap opcode has `imm` 16, 32 or 64 (R58, R137). -/
abbrev Slot.selectorOk (sl : Slot) : Prop :=
  sl.opcode = 0xd4 ∨ sl.opcode = 0xdc → sl.imm.toInt = 16 ∨ sl.imm.toInt = 32 ∨ sl.imm.toInt = 64

/-- R74, third test: `LDDW` has a second slot (R60). -/
abbrev Slot.secondSlotOk (sl : Slot) (following : Option Slot) : Prop :=
  sl.opcode = 0x18 → following.isSome = true

/-- R75: `dest` names a register (R13). -/
abbrev Slot.destOk (sl : Slot) : Prop := sl.dest.toNat ≤ 10

/-- R75: `src` names a register (R13), whether or not the instruction uses it. -/
abbrev Slot.srcOk (sl : Slot) : Prop := sl.src.toNat ≤ 10

/-- The slot, with the slot after it if there is one, passes every check of R74 and R75. -/
abbrev Slot.WellFormed (sl : Slot) (following : Option Slot) : Prop :=
  sl.opcodeKnown ∧ sl.selectorOk ∧ sl.secondSlotOk following ∧ sl.destOk ∧ sl.srcOk

/-- The decoder's precondition on a buffer: its length is a multiple of 8 (R52). -/
abbrev BufferWellFormed (bytes : List Byte) : Prop := bytes.length % 8 = 0

end Sys2Proof
end

