-- ==== Sys2Proof/Decode.lean ====
section
/-!
DEFINITION. The load-time decoder (bytes to slots), the run-time recognition of a slot (slot to instruction), and the
encoder (spec/30_encoding.md R50 to R60; spec/40_execution_step.md R74, R75).
-/

namespace Sys2Proof

/-! ### Bytes and slots -/

/-- Byte `j` of a value, `v[8j+7:8j]` (R5). -/
def byteOf {n : Nat} (v : BitVec n) (j : Nat) : Byte := v.extractLsb' (8 * j) 8

/-- The five fields of the eight bytes of a slot: little-endian, `dest` the low nibble of byte 1 (R50, R51). -/
def slotOfBytes (b0 b1 b2 b3 b4 b5 b6 b7 : Byte) : Slot :=
  { opcode := b0
    dest   := b1.extractLsb' 0 4
    src    := b1.extractLsb' 4 4
    offset := b3 ++ b2
    imm    := b7 ++ b6 ++ b5 ++ b4 }

/-- The eight bytes of a slot: the encoder of R53. -/
def Slot.bytes (sl : Slot) : List Byte :=
  [sl.opcode, sl.src ++ sl.dest, byteOf sl.offset 0, byteOf sl.offset 1,
   byteOf sl.imm 0, byteOf sl.imm 1, byteOf sl.imm 2, byteOf sl.imm 3]

/-- Split a buffer into its slots, in buffer order (R5, R52); a rest of fewer than eight bytes is no slot. -/
def splitSlots : List Byte → List Slot
  | b0 :: b1 :: b2 :: b3 :: b4 :: b5 :: b6 :: b7 :: rest => slotOfBytes b0 b1 b2 b3 b4 b5 b6 b7 :: splitSlots rest
  | _ => []

/-- `DecodeError`: the one answer of the load interface other than a program (R52, R207). -/
inductive DecodeError where
  /-- `MisalignedLength`: the buffer's length is not a multiple of 8. -/
  | misalignedLength
  deriving DecidableEq, Repr

/-- The load-time decoder (R52): the length test is its only test. -/
def decodeProgram (bytes : List Byte) : Except DecodeError (List Slot) :=
  if bytes.length % Config.insnBytes = 0 then .ok (splitSlots bytes) else .error .misalignedLength

/-- The bytes of a program: what R53 calls re-encoding. -/
def programBytes (slots : List Slot) : List Byte := slots.flatMap Slot.bytes

/-! ### Recognition -/

/-- Why a slot is not executed, by name; which trap each is, is `Machine.trapOfReject`. -/
inductive Reject where
  /-- The opcode byte is not in the map (R57). -/
  | unknownOpcode (opcode : Byte)
  /-- A byteswap opcode with `imm` not 16, 32 or 64 (R58). -/
  | badSelector (opcode : Byte)
  /-- `LDDW` in the last slot (R60). -/
  | noSecondSlot (opcode : Byte)
  /-- `dest` above 10 (R75). -/
  | badDest (field : RegField)
  /-- `src` above 10 (R75). -/
  | badSrc (field : RegField)
  deriving DecidableEq, Repr

/-- The 4-bit field that names a register (R13). -/
def fieldOfReg (r : Reg) : RegField := BitVec.ofNat 4 r.val

/-- The register a field names, if it names one (R13). -/
def regOfField (f : RegField) : Option Reg := if h : f.toNat < 11 then some ⟨f.toNat, h⟩ else none

/-- The width selector of a byteswap opcode (R58, R137): the instruction for `imm` 16, 32 or 64, else a rejection. -/
def selectWidth (sl : Slot) (at16 at32 at64 : Reg → Instr) : Except Reject (Reg → Reg → Instr) :=
  if sl.imm.toInt = 16 then .ok fun d _ => at16 d
  else if sl.imm.toInt = 32 then .ok fun d _ => at32 d
  else if sl.imm.toInt = 64 then .ok fun d _ => at64 d
  else .error (.badSelector sl.opcode)

/-- Recognition (R74) by the opcode map of R56 (byte values: decision D1, log entry 7): the instruction a slot spells,
as a function of its two register operands, which are checked after it. `following` is the slot after it, if any. -/
def recognise (sl : Slot) (following : Option Slot) : Except Reject (Reg → Reg → Instr) :=
  match sl.opcode with
  -- ALU64 family (spec/41_alu64.md)
  | 0xb7 => .ok fun d _ => .movImm d sl.imm
  | 0xbf => .ok fun d r => .movReg d r
  | 0x07 => .ok fun d _ => .addImm d sl.imm
  | 0x0f => .ok fun d r => .addReg d r
  | 0x17 => .ok fun d _ => .subImm d sl.imm
  | 0x1f => .ok fun d r => .subReg d r
  | 0x27 => .ok fun d _ => .mulImm d sl.imm
  | 0x2f => .ok fun d r => .mulReg d r
  | 0x37 => .ok fun d _ => .divImm d sl.imm
  | 0x3f => .ok fun d r => .divReg d r
  | 0x47 => .ok fun d _ => .orImm d sl.imm
  | 0x4f => .ok fun d r => .orReg d r
  | 0x57 => .ok fun d _ => .andImm d sl.imm
  | 0x5f => .ok fun d r => .andReg d r
  | 0x67 => .ok fun d _ => .lshImm d sl.imm
  | 0x6f => .ok fun d r => .lshReg d r
  | 0x77 => .ok fun d _ => .rshImm d sl.imm
  | 0x7f => .ok fun d r => .rshReg d r
  | 0xc7 => .ok fun d _ => .arshImm d sl.imm
  | 0xcf => .ok fun d r => .arshReg d r
  | 0x87 => .ok fun d _ => .negImm d
  | 0x8f => .ok fun d _ => .negReg d
  | 0x97 => .ok fun d _ => .modImm d sl.imm
  | 0x9f => .ok fun d r => .modReg d r
  | 0xa7 => .ok fun d _ => .xorImm d sl.imm
  | 0xaf => .ok fun d r => .xorReg d r
  -- Byteswap family (spec/42_byteswap.md)
  | 0xd4 => selectWidth sl .le16 .le32 .le64
  | 0xdc => selectWidth sl .be16 .be32 .be64
  -- Memory family (spec/43_memory_ops.md)
  | 0x18 =>
    match following with
    | none => .error (.noSecondSlot sl.opcode)
    | some second => .ok fun d _ => .lddw d sl.imm second.imm
  | 0x30 => .ok fun d _ => .ldabsb d sl.imm
  | 0x28 => .ok fun d _ => .ldabsh d sl.imm
  | 0x20 => .ok fun d _ => .ldabsw d sl.imm
  | 0x38 => .ok fun d _ => .ldabsdw d sl.imm
  | 0x50 => .ok fun d r => .ldindb d r sl.imm
  | 0x48 => .ok fun d r => .ldindh d r sl.imm
  | 0x40 => .ok fun d r => .ldindw d r sl.imm
  | 0x58 => .ok fun d r => .ldinddw d r sl.imm
  | 0x71 => .ok fun d r => .ldxb d r sl.offset
  | 0x69 => .ok fun d r => .ldxh d r sl.offset
  | 0x61 => .ok fun d r => .ldxw d r sl.offset
  | 0x79 => .ok fun d r => .ldxdw d r sl.offset
  | 0x72 => .ok fun d _ => .stb d sl.offset sl.imm
  | 0x6a => .ok fun d _ => .sth d sl.offset sl.imm
  | 0x62 => .ok fun d _ => .stw d sl.offset sl.imm
  | 0x7a => .ok fun d _ => .stdw d sl.offset sl.imm
  | 0x73 => .ok fun d r => .stxb d r sl.offset
  | 0x6b => .ok fun d r => .stxh d r sl.offset
  | 0x63 => .ok fun d r => .stxw d r sl.offset
  | 0x7b => .ok fun d r => .stxdw d r sl.offset
  -- Branch family (spec/44_branch_call_exit.md)
  | 0x05 => .ok fun _ _ => .ja sl.offset
  | 0x15 => .ok fun d _ => .jeqImm d sl.offset sl.imm
  | 0x1d => .ok fun d r => .jeqReg d r sl.offset
  | 0x25 => .ok fun d _ => .jgtImm d sl.offset sl.imm
  | 0x2d => .ok fun d r => .jgtReg d r sl.offset
  | 0x35 => .ok fun d _ => .jgeImm d sl.offset sl.imm
  | 0x3d => .ok fun d r => .jgeReg d r sl.offset
  | 0xa5 => .ok fun d _ => .jltImm d sl.offset sl.imm
  | 0xad => .ok fun d r => .jltReg d r sl.offset
  | 0xb5 => .ok fun d _ => .jleImm d sl.offset sl.imm
  | 0xbd => .ok fun d r => .jleReg d r sl.offset
  | 0x45 => .ok fun d _ => .jsetImm d sl.offset sl.imm
  | 0x4d => .ok fun d r => .jsetReg d r sl.offset
  | 0x55 => .ok fun d _ => .jneImm d sl.offset sl.imm
  | 0x5d => .ok fun d r => .jneReg d r sl.offset
  | 0x65 => .ok fun d _ => .jsgtImm d sl.offset sl.imm
  | 0x6d => .ok fun d r => .jsgtReg d r sl.offset
  | 0x75 => .ok fun d _ => .jsgeImm d sl.offset sl.imm
  | 0x7d => .ok fun d r => .jsgeReg d r sl.offset
  | 0xc5 => .ok fun d _ => .jsltImm d sl.offset sl.imm
  | 0xcd => .ok fun d r => .jsltReg d r sl.offset
  | 0xd5 => .ok fun d _ => .jsleImm d sl.offset sl.imm
  | 0xdd => .ok fun d r => .jsleReg d r sl.offset
  | 0x85 => .ok fun _ _ => .call sl.imm
  | 0x95 => .ok fun _ _ => .exit
  | opcode => .error (.unknownOpcode opcode)

/-- The instruction in a slot, or why there is none: recognition (R74), then the register check, `dest` before `src`,
on both fields of every recognised slot (R75, R208; decisions D8, D29, log entry 10). -/
def decode (sl : Slot) (following : Option Slot) : Except Reject Instr :=
  match recognise sl following with
  | .error e => .error e
  | .ok instr =>
    match regOfField sl.dest with
    | none => .error (.badDest sl.dest)
    | some d =>
      match regOfField sl.src with
      | none => .error (.badSrc sl.src)
      | some r => .ok (instr d r)

/-- The decoder on raw bytes: the first slot of a buffer, and its second if there is one. `none` where the buffer holds
no slot or the slot is rejected. -/
def decodeBytes (bytes : List Byte) : Option Instr :=
  match splitSlots bytes with
  | [] => none
  | sl :: rest => (decode sl rest.head?).toOption

/-! ### The encoder -/

/-- A slot with every field given (R50). -/
def slotOf (opcode : Byte) (dest src : RegField) (offset : Off) (imm : Imm) : Slot := ⟨opcode, dest, src, offset, imm⟩

/-- The slots of an instruction (R50, R53, R56), `LDDW` two and every other one (R60); fields that the instruction
ignores are zero, as in every encoding the spec prints (R62; log entry 14). -/
def encode : Instr → List Slot
  -- ALU64 family (spec/41_alu64.md)
  | .movImm d m => [slotOf 0xb7 (fieldOfReg d) 0 0 m]
  | .movReg d r => [slotOf 0xbf (fieldOfReg d) (fieldOfReg r) 0 0]
  | .addImm d m => [slotOf 0x07 (fieldOfReg d) 0 0 m]
  | .addReg d r => [slotOf 0x0f (fieldOfReg d) (fieldOfReg r) 0 0]
  | .subImm d m => [slotOf 0x17 (fieldOfReg d) 0 0 m]
  | .subReg d r => [slotOf 0x1f (fieldOfReg d) (fieldOfReg r) 0 0]
  | .mulImm d m => [slotOf 0x27 (fieldOfReg d) 0 0 m]
  | .mulReg d r => [slotOf 0x2f (fieldOfReg d) (fieldOfReg r) 0 0]
  | .divImm d m => [slotOf 0x37 (fieldOfReg d) 0 0 m]
  | .divReg d r => [slotOf 0x3f (fieldOfReg d) (fieldOfReg r) 0 0]
  | .orImm d m => [slotOf 0x47 (fieldOfReg d) 0 0 m]
  | .orReg d r => [slotOf 0x4f (fieldOfReg d) (fieldOfReg r) 0 0]
  | .andImm d m => [slotOf 0x57 (fieldOfReg d) 0 0 m]
  | .andReg d r => [slotOf 0x5f (fieldOfReg d) (fieldOfReg r) 0 0]
  | .lshImm d m => [slotOf 0x67 (fieldOfReg d) 0 0 m]
  | .lshReg d r => [slotOf 0x6f (fieldOfReg d) (fieldOfReg r) 0 0]
  | .rshImm d m => [slotOf 0x77 (fieldOfReg d) 0 0 m]
  | .rshReg d r => [slotOf 0x7f (fieldOfReg d) (fieldOfReg r) 0 0]
  | .arshImm d m => [slotOf 0xc7 (fieldOfReg d) 0 0 m]
  | .arshReg d r => [slotOf 0xcf (fieldOfReg d) (fieldOfReg r) 0 0]
  | .negImm d => [slotOf 0x87 (fieldOfReg d) 0 0 0]
  | .negReg d => [slotOf 0x8f (fieldOfReg d) 0 0 0]
  | .modImm d m => [slotOf 0x97 (fieldOfReg d) 0 0 m]
  | .modReg d r => [slotOf 0x9f (fieldOfReg d) (fieldOfReg r) 0 0]
  | .xorImm d m => [slotOf 0xa7 (fieldOfReg d) 0 0 m]
  | .xorReg d r => [slotOf 0xaf (fieldOfReg d) (fieldOfReg r) 0 0]
  -- Byteswap family (spec/42_byteswap.md)
  | .le16 d => [slotOf 0xd4 (fieldOfReg d) 0 0 16]
  | .le32 d => [slotOf 0xd4 (fieldOfReg d) 0 0 32]
  | .le64 d => [slotOf 0xd4 (fieldOfReg d) 0 0 64]
  | .be16 d => [slotOf 0xdc (fieldOfReg d) 0 0 16]
  | .be32 d => [slotOf 0xdc (fieldOfReg d) 0 0 32]
  | .be64 d => [slotOf 0xdc (fieldOfReg d) 0 0 64]
  -- Memory family (spec/43_memory_ops.md)
  | .lddw d lo hi => [slotOf 0x18 (fieldOfReg d) 0 0 lo, slotOf 0 0 0 0 hi]
  | .ldabsb d m => [slotOf 0x30 (fieldOfReg d) 0 0 m]
  | .ldabsh d m => [slotOf 0x28 (fieldOfReg d) 0 0 m]
  | .ldabsw d m => [slotOf 0x20 (fieldOfReg d) 0 0 m]
  | .ldabsdw d m => [slotOf 0x38 (fieldOfReg d) 0 0 m]
  | .ldindb d r m => [slotOf 0x50 (fieldOfReg d) (fieldOfReg r) 0 m]
  | .ldindh d r m => [slotOf 0x48 (fieldOfReg d) (fieldOfReg r) 0 m]
  | .ldindw d r m => [slotOf 0x40 (fieldOfReg d) (fieldOfReg r) 0 m]
  | .ldinddw d r m => [slotOf 0x58 (fieldOfReg d) (fieldOfReg r) 0 m]
  | .ldxb d r o => [slotOf 0x71 (fieldOfReg d) (fieldOfReg r) o 0]
  | .ldxh d r o => [slotOf 0x69 (fieldOfReg d) (fieldOfReg r) o 0]
  | .ldxw d r o => [slotOf 0x61 (fieldOfReg d) (fieldOfReg r) o 0]
  | .ldxdw d r o => [slotOf 0x79 (fieldOfReg d) (fieldOfReg r) o 0]
  | .stb d o m => [slotOf 0x72 (fieldOfReg d) 0 o m]
  | .sth d o m => [slotOf 0x6a (fieldOfReg d) 0 o m]
  | .stw d o m => [slotOf 0x62 (fieldOfReg d) 0 o m]
  | .stdw d o m => [slotOf 0x7a (fieldOfReg d) 0 o m]
  | .stxb d r o => [slotOf 0x73 (fieldOfReg d) (fieldOfReg r) o 0]
  | .stxh d r o => [slotOf 0x6b (fieldOfReg d) (fieldOfReg r) o 0]
  | .stxw d r o => [slotOf 0x63 (fieldOfReg d) (fieldOfReg r) o 0]
  | .stxdw d r o => [slotOf 0x7b (fieldOfReg d) (fieldOfReg r) o 0]
  -- Branch family (spec/44_branch_call_exit.md)
  | .ja o => [slotOf 0x05 0 0 o 0]
  | .jeqImm d o m => [slotOf 0x15 (fieldOfReg d) 0 o m]
  | .jeqReg d r o => [slotOf 0x1d (fieldOfReg d) (fieldOfReg r) o 0]
  | .jgtImm d o m => [slotOf 0x25 (fieldOfReg d) 0 o m]
  | .jgtReg d r o => [slotOf 0x2d (fieldOfReg d) (fieldOfReg r) o 0]
  | .jgeImm d o m => [slotOf 0x35 (fieldOfReg d) 0 o m]
  | .jgeReg d r o => [slotOf 0x3d (fieldOfReg d) (fieldOfReg r) o 0]
  | .jltImm d o m => [slotOf 0xa5 (fieldOfReg d) 0 o m]
  | .jltReg d r o => [slotOf 0xad (fieldOfReg d) (fieldOfReg r) o 0]
  | .jleImm d o m => [slotOf 0xb5 (fieldOfReg d) 0 o m]
  | .jleReg d r o => [slotOf 0xbd (fieldOfReg d) (fieldOfReg r) o 0]
  | .jsetImm d o m => [slotOf 0x45 (fieldOfReg d) 0 o m]
  | .jsetReg d r o => [slotOf 0x4d (fieldOfReg d) (fieldOfReg r) o 0]
  | .jneImm d o m => [slotOf 0x55 (fieldOfReg d) 0 o m]
  | .jneReg d r o => [slotOf 0x5d (fieldOfReg d) (fieldOfReg r) o 0]
  | .jsgtImm d o m => [slotOf 0x65 (fieldOfReg d) 0 o m]
  | .jsgtReg d r o => [slotOf 0x6d (fieldOfReg d) (fieldOfReg r) o 0]
  | .jsgeImm d o m => [slotOf 0x75 (fieldOfReg d) 0 o m]
  | .jsgeReg d r o => [slotOf 0x7d (fieldOfReg d) (fieldOfReg r) o 0]
  | .jsltImm d o m => [slotOf 0xc5 (fieldOfReg d) 0 o m]
  | .jsltReg d r o => [slotOf 0xcd (fieldOfReg d) (fieldOfReg r) o 0]
  | .jsleImm d o m => [slotOf 0xd5 (fieldOfReg d) 0 o m]
  | .jsleReg d r o => [slotOf 0xdd (fieldOfReg d) (fieldOfReg r) o 0]
  | .call m => [slotOf 0x85 0 0 0 m]
  | .exit => [slotOf 0x95 0 0 0 0]

/-- The bytes of an instruction, in buffer order (R53). -/
def encodeBytes (i : Instr) : List Byte := programBytes (encode i)

/-! ### Words numbered as spec/opcode_table.json numbers them -/

/-- The low `n` bytes of a number, least significant first. -/
def littleEndianBytes : Nat → Nat → List Byte
  | 0, _ => []
  | n + 1, w => BitVec.ofNat 8 w :: littleEndianBytes n (w / 256)

/-- The two slots of a table word: its low `nbits` bits, zeros above them, up to the longest instruction (16 bytes, R60),
laid out as the buffer stores them (R5: bit 0 is bit 0 of the first byte). -/
def tableSlots (nbits w : Nat) : List Slot := splitSlots (littleEndianBytes 16 (w % 2 ^ nbits))

/-- The instruction the decoder reads from a table word (none where it rejects it). -/
def decodeTableWord (nbits w : Nat) : Option Instr := decodeBytes (littleEndianBytes 16 (w % 2 ^ nbits))

end Sys2Proof
end

