-- ==== Sys2Proof/Machine/State.lean ====
section
/-!
DEFINITION. The state of the machine (spec/10_state.md R10 to R25), its trap reasons (spec/60_exceptions.md R200), and
its reset value (R23). Plain data throughout.
-/

namespace Sys2Proof.Machine

/-- The six trap reasons of R200, each with its payload. A trap is not a stop of the model: taking one is a next state
(R210). `invalidRegister` and `invalidJumpTarget` are the spec's own additions (decisions D8, D14, log entry 10). -/
inductive Trap where
  /-- The opcode byte of the slot at `pc` (R201). -/
  | invalidOpcode (byte : Byte)
  /-- The offending register field, 11 to 15 (R205). -/
  | invalidRegister (index : RegField)
  /-- The signed effective address and the width of the access (R202). -/
  | memoryFault (address : Int) (width : Width)
  /-- A zero operand of `DIV` or `MOD` (R203). -/
  | divisionByZero
  /-- The signed call id (R204). -/
  | unsupportedCall (id : Int)
  /-- The negative target of a taken jump (R206). -/
  | invalidJumpTarget (target : Int)
  deriving DecidableEq, Repr

/-- The run status (R17). -/
inductive Status where
  /-- Reset done, no step taken yet. -/
  | ready
  /-- At least one step taken, no halt or trap yet. -/
  | running
  /-- Terminal: `EXIT`, or `pc` at or past the end; the exit code is all of `x[0]` (R78, D28). -/
  | halted (code : Word)
  /-- Terminal: a trap was raised (R210). -/
  | faulted (reason : Trap)
  deriving DecidableEq, Repr

/-- Whether the run has ended (R17, R71). -/
def Status.terminal : Status → Bool
  | .ready => false
  | .running => false
  | .halted _ => true
  | .faulted _ => true

/-- The linear memory (R30) as its non-zero bytes, by address; its canonical form is `Memory.wf` of `Ops.lean`. -/
abbrev Memory := List Host.Cell

/-- The whole state: the spec's five pieces (R10), and `resolver`, the model's own plain datum that says for which call
ids the host's resolver has an entry, `none` where the host supplied no resolver (R195, R4; log entry 3). -/
structure State where
  /-- The program store: `N` slots; `N` is its length (R10, R20). -/
  prog     : List Slot
  /-- `x[0]` to `x[10]` (R11). -/
  regs     : Vector Word 11
  /-- The index of the next slot to execute, a natural number (R14; log entry 5). -/
  pc       : Nat
  /-- The linear memory (R30). -/
  mem      : Memory
  /-- The run status (R17). -/
  status   : Status
  /-- The ids the host's call resolver answers (R195; not the spec's state, log entry 3). -/
  resolver : Option (List Imm)
  deriving DecidableEq, Repr

/-- Stops of the model other than the spec's own: there is none. Every trap and every halt of the spec is a value of
`status` in a next state (R71, R210), and "from every non-terminal state exactly one next state exists" (U19 of
spec/93_implementation_defined.md), so no constructor is needed. Log entry 4, safe. -/
inductive Fault where
  deriving DecidableEq, Repr

/-- Refusals: raised by no meaning; the one constructor is for an arm of `exec` without a meaning, of which there is
none. Safe: a refusal claims nothing. -/
inductive Refusal where
  /-- An instruction of the opcode table that has no meaning yet. Raised by `exec` only. Safe. -/
  | notModelled (mnemonic : String)
  deriving DecidableEq, Repr

/-- What a meaning answers. -/
abbrev Result := Host.Outcome State Fault Refusal

/-- The state right after the reset operation (R23, R230), before any load: every register and every memory byte 0,
`pc` 0, status `Ready`. The spec gives the program store no contents before the first load (U20): it is empty here
(DESIGN CHOICE, unsafe, log entry 1). No call resolver, the spec's default (R4). -/
def State.reset : State :=
  { prog := [], regs := Vector.replicate 11 0, pc := 0, mem := [], status := .ready, resolver := none }

end Sys2Proof.Machine
end

