-- ==== Sys2Proof/Machine/Ops.lean ====
section
/-!
DEFINITION. The named operations over registers, memory and the program counter; taking a trap, halting, and the reset
operation that alone leaves a terminal status (spec/10_state.md, spec/20_memory.md, spec/60_exceptions.md R210 to R212,
spec/70_reset_and_hazards.md R230).
-/

namespace Sys2Proof.Machine

/-! ### Registers and program counter -/

/-- `x[r]` (R6, R11). -/
def State.readReg (s : State) (r : Reg) : Word := s.regs.get r

/-- `x[r] <- v` (R6, R11): no register is hard-wired, `x[10]` included (R12, D18). -/
def State.writeReg (s : State) (r : Reg) (v : Word) : State := { s with regs := s.regs.set r.val v r.isLt }

/-- `pc <- pc + n` (R77; `n` is 2 for `LDDW`, R141). -/
def State.advance (s : State) (n : Nat) : State := { s with pc := s.pc + n }

/-- `pc <- t` (R77). -/
def State.setPc (s : State) (t : Nat) : State := { s with pc := t }

/-- The memory replaced, everything else kept. -/
def State.setMem (s : State) (m : Memory) : State := { s with mem := m }

/-- The run status replaced, everything else kept. -/
def State.setStatus (s : State) (st : Status) : State := { s with status := st }

/-! ### The linear memory, byte by byte -/

/-- What an address that is not listed reads as: the reset contents (R23, R30). -/
def unlistedByte : Byte := 0

/-- `mem[a]` (R5). -/
def Memory.readByte : Memory → Nat → Byte
  | [], _ => unlistedByte
  | (b, x) :: m, a => if a = b then x else Memory.readByte m a

/-- `mem[a] <- v`, keeping the canonical form: addresses strictly rising, no byte listed that equals `unlistedByte`. -/
def Memory.writeByte : Memory → Nat → Byte → Memory
  | [], a, v => if v = unlistedByte then [] else [(a, v)]
  | (b, x) :: m, a, v =>
    if a < b then (if v = unlistedByte then (b, x) :: m else (a, v) :: (b, x) :: m)
    else if a = b then (if v = unlistedByte then m else (a, v) :: m)
    else (b, x) :: Memory.writeByte m a v

/-- The canonical form, from a least address on: addresses strictly rising and inside the memory (R30, R39), no listed
byte equal to `unlistedByte`. -/
def Memory.wfFrom : Nat → Memory → Bool
  | _, [] => true
  | lo, (a, v) :: m => decide (lo ≤ a) && decide (a < Config.memorySize) && decide (v ≠ unlistedByte) && Memory.wfFrom (a + 1) m

/-- The canonical form of the whole memory. -/
def Memory.wf (m : Memory) : Bool := Memory.wfFrom 0 m

/-! ### The memory subsystem -/

/-- The bytes of an access (R37). -/
def Width.bytes : Width → Nat
  | .byte => 1
  | .half => 2
  | .word => 4
  | .dword => 8

/-- The bounds check of every memory operation (R32), on the signed address, in the integers. -/
def inBounds (addr : Word) (w : Width) : Bool :=
  decide (0 ≤ addr.toInt) && decide (addr.toInt + Width.bytes w ≤ Config.memorySize)

/-- The `n` bytes from `a` on, little-endian, zero-extended to 64 bits (R31, R34, R37). -/
def Memory.readLE (m : Memory) (a : Nat) : Nat → Word
  | 0 => 0
  | n + 1 => Memory.readLE m a n ||| (m.readByte (a + n)).setWidth 64 <<< (8 * n)

/-- The low `n` bytes of `v` stored from `a` on, little-endian (R31, R35). -/
def Memory.writeLE (m : Memory) (a : Nat) (v : Word) : Nat → Memory
  | 0 => m
  | n + 1 => Memory.writeByte (Memory.writeLE m a v n) (a + n) (byteOf v n)

/-- `MemRead(addr, n)`, zero-extended to 64 bits (R34, R37). -/
def memRead (m : Memory) (addr : Word) (w : Width) : Except Trap Word :=
  if inBounds addr w then .ok (m.readLE addr.toInt.toNat (Width.bytes w))
  else .error (.memoryFault addr.toInt w)

/-- `MemWrite(addr, n, v)`, `v` the low bits of a 64-bit value (R35): all or nothing (R36). -/
def memWrite (m : Memory) (addr : Word) (w : Width) (v : Word) : Except Trap Memory :=
  if inBounds addr w then .ok (m.writeLE addr.toInt.toNat v (Width.bytes w))
  else .error (.memoryFault addr.toInt w)

/-! ### Traps, halts, reset -/

/-- `raise Trap(reason)` (R210): the status becomes `Faulted(reason)` and nothing else changes; there is no handler, no
saved state and no mode (R212, R220). -/
def raiseTrap (reason : Trap) (s : State) : Result := .next (s.setStatus (.faulted reason))

/-- `halt(code)` (R78): the status becomes `Halted(code)` and nothing else changes. -/
def halt (code : Word) (s : State) : Result := .next (s.setStatus (.halted code))

/-- The trap that a rejected slot raises (R74, R75; R201, R205). -/
def trapOfReject : Reject → Trap
  | .unknownOpcode op => .invalidOpcode op
  | .badSelector op => .invalidOpcode op
  | .noSecondSlot op => .invalidOpcode op
  | .badDest f => .invalidRegister f
  | .badSrc f => .invalidRegister f

/-- The reset operation (R230): registers, `pc` and memory zero, status `Ready`; the program stays. There is no return
from a trap (R212): this is the only way out of `Faulted` and `Halted`. The resolver, no state of the spec's, stays. -/
def State.restart (s : State) : State := { State.reset with prog := s.prog, resolver := s.resolver }

/-! ### The shapes that instruction rules share -/

/-- `x[d] <- f(x[d])`, then `pc <- pc + 1` (R100, R130). -/
def updateReg (d : Reg) (f : Word → Word) (s : State) : Result :=
  .next ((s.writeReg d (f (s.readReg d))).advance 1)

/-- `DIV` and `MOD`: a zero operand traps before anything is written (R100, R203). -/
def updateRegUnlessZero (d : Reg) (f : Word → Word → Word) (operand : Word) (s : State) : Result :=
  if operand = 0 then raiseTrap .divisionByZero s else updateReg d (fun a => f a operand) s

/-- A load: read, then `x[d] <- zext_64(v)`, then `pc <- pc + 1`; a fault leaves `x[d]` unwritten (R142, R151). -/
def loadReg (d : Reg) (addr : Word) (w : Width) (s : State) : Result :=
  match memRead s.mem addr w with
  | .error t => raiseTrap t s
  | .ok v => updateReg d (fun _ => v) s

/-- A store: write the low bytes of `v`, then `pc <- pc + 1`; a fault writes nothing (R156, R161). -/
def storeMem (addr : Word) (w : Width) (v : Word) (s : State) : Result :=
  match memWrite s.mem addr w v with
  | .error t => raiseTrap t s
  | .ok m => .next ((s.setMem m).advance 1)

/-- `jump_to(t)` (R171): a negative target traps; one at or past the end is no error here (R72; D14). -/
def jumpTo (t : Int) (s : State) : Result :=
  if t < 0 then raiseTrap (.invalidJumpTarget t) s else .next (s.setPc t.toNat)

end Sys2Proof.Machine
end

