-- ==== Sys2Proof/Machine/Operands.lean ====
section
/-!
DEFINITION. Operand forms, effective addresses, jump targets (spec/30_encoding.md R54; spec/43_memory_ops.md R140, R142;
spec/44_branch_call_exit.md R171) and the arithmetic the instruction rules name (spec/41_alu64.md R101, R102;
spec/42_byteswap.md R130).
-/

namespace Sys2Proof.Machine

/-! ### Operands -/

/-- `imm64 = sext_64(imm)` (R6, R54 (a)). -/
def imm64 (imm : Imm) : Word := imm.signExtend 64

/-- `off64 = sext_64(offset)` (R6, R54 (c)). -/
def off64 (off : Off) : Word := off.signExtend 64

/-- The 64-bit immediate of `LDDW`: two raw halves, neither sign-extended (R54 (d), R141; D9, log entry 8). -/
def wideImm (lo hi : Imm) : Word := lo.setWidth 64 ||| hi.setWidth 64 <<< 32

/-! ### Effective addresses, modulo 2^64 (D11, log entry 12) -/

/-- Base plus displacement, for `LDX*`, `ST*`, `STX*` (R140). -/
def dispAddr (base : Reg) (off : Off) (s : State) : Word := s.readReg base + off64 off

/-- Absolute, for `LDABS*` (R142 (b)). -/
def absAddr (imm : Imm) : Word := imm64 imm

/-- Register-relative, for `LDIND*` (R142 (b)). -/
def indAddr (base : Reg) (imm : Imm) (s : State) : Word := s.readReg base + imm64 imm

/-- The target of a jump, in the integers: `pc + 1 + signed(offset)` (R171). -/
def jumpTarget (off : Off) (s : State) : Int := (s.pc : Int) + 1 + off.toInt

/-! ### Arithmetic -/

/-- `sdiv64`: the quotient of the signed values, rounded toward zero, modulo 2^64 (R101). -/
def sdiv64 (a b : Word) : Word := BitVec.ofInt 64 (a.toInt.tdiv b.toInt)

/-- `srem64`: what that quotient leaves (R101). -/
def srem64 (a b : Word) : Word := BitVec.ofInt 64 (a.toInt - a.toInt.tdiv b.toInt * b.toInt)

/-- `udiv64`: the quotient of the unsigned values (R101). -/
def udiv64 (a b : Word) : Word := BitVec.ofNat 64 (a.toNat / b.toNat)

/-- `urem64`: the remainder of the unsigned values (R101). -/
def urem64 (a b : Word) : Word := BitVec.ofNat 64 (a.toNat % b.toNat)

/-- Division as `DIVMOD_SIGNED` selects it (R4, R101; D4, log entry 6). -/
def div64 (a b : Word) : Word := if Config.divmodSigned then sdiv64 a b else udiv64 a b

/-- Remainder as `DIVMOD_SIGNED` selects it (R4, R101; D4, log entry 6). -/
def mod64 (a b : Word) : Word := if Config.divmodSigned then srem64 a b else urem64 a b

/-- The shift amount: the low 6 bits of the operand (R102; D5, log entry 8). -/
def shiftAmount (operand : Word) : Nat := (operand.extractLsb' 0 6).toNat

/-- `a << n`, zeros entering at bit 0 (R102). -/
def shiftLeft (a operand : Word) : Word := a <<< shiftAmount operand

/-- `a >>u n`, zeros entering at bit 63 (R102; D5, log entry 8). -/
def shiftRight (a operand : Word) : Word := a >>> shiftAmount operand

/-- `a >>s n`, copies of bit 63 entering (R102; D5, log entry 8). -/
def shiftRightArith (a operand : Word) : Word := a.sshiftRight (shiftAmount operand)

/-- `x[w-1:0]`, zero-extended: what the `LE` instructions write (R130; C1). -/
def truncZext (w : Nat) (a : Word) : Word := (a.setWidth w).setWidth 64

/-- The bytes of a 16-bit value in reverse order (R130, R134). -/
def byterev16 (v : BitVec 16) : BitVec 16 := byteOf v 0 ++ byteOf v 1

/-- The bytes of a 32-bit value in reverse order (R130, R135). -/
def byterev32 (v : BitVec 32) : BitVec 32 := byteOf v 0 ++ byteOf v 1 ++ byteOf v 2 ++ byteOf v 3

/-- The bytes of a 64-bit value in reverse order (R130, R136). -/
def byterev64 (v : BitVec 64) : BitVec 64 :=
  byteOf v 0 ++ byteOf v 1 ++ byteOf v 2 ++ byteOf v 3 ++ byteOf v 4 ++ byteOf v 5 ++ byteOf v 6 ++ byteOf v 7

end Sys2Proof.Machine
end

