-- ==== Sys2Proof/Machine/Alu.lean ====
section
/-!
DEFINITION. The ALU64 family (spec/41_alu64.md R100 to R128): 26 instructions, each `x[d] <- f(x[d], operand)`, then `pc <- pc + 1`.
-/

namespace Sys2Proof.Machine

/-- `MOV_IMM` (R103): `x[d] <- imm64`. -/
def execMovImm (d : Reg) (m : Imm) (s : State) : Result := updateReg d (fun _ => imm64 m) s

/-- `MOV_REG` (R104): `x[d] <- x[s]`. -/
def execMovReg (d : Reg) (r : Reg) (s : State) : Result := updateReg d (fun _ => s.readReg r) s

/-- `ADD_IMM` (R105): `x[d] <- x[d] +64 imm64`. -/
def execAddImm (d : Reg) (m : Imm) (s : State) : Result := updateReg d (fun a => a + imm64 m) s

/-- `ADD_REG` (R106): `x[d] <- x[d] +64 x[s]`. -/
def execAddReg (d : Reg) (r : Reg) (s : State) : Result := updateReg d (fun a => a + s.readReg r) s

/-- `SUB_IMM` (R107): `x[d] <- x[d] -64 imm64`. -/
def execSubImm (d : Reg) (m : Imm) (s : State) : Result := updateReg d (fun a => a - imm64 m) s

/-- `SUB_REG` (R108): `x[d] <- x[d] -64 x[s]`. -/
def execSubReg (d : Reg) (r : Reg) (s : State) : Result := updateReg d (fun a => a - s.readReg r) s

/-- `MUL_IMM` (R109): `x[d] <- x[d] *64 imm64`. -/
def execMulImm (d : Reg) (m : Imm) (s : State) : Result := updateReg d (fun a => a * imm64 m) s

/-- `MUL_REG` (R110): `x[d] <- x[d] *64 x[s]`. -/
def execMulReg (d : Reg) (r : Reg) (s : State) : Result := updateReg d (fun a => a * s.readReg r) s

/-- `DIV_IMM` (R111): traps on a zero operand, else `x[d] <- div64(x[d], imm64)`. -/
def execDivImm (d : Reg) (m : Imm) (s : State) : Result := updateRegUnlessZero d div64 (imm64 m) s

/-- `DIV_REG` (R112): traps on a zero operand, else `x[d] <- div64(x[d], x[s])`. -/
def execDivReg (d : Reg) (r : Reg) (s : State) : Result := updateRegUnlessZero d div64 (s.readReg r) s

/-- `OR_IMM` (R113): `x[d] <- x[d] | imm64`. -/
def execOrImm (d : Reg) (m : Imm) (s : State) : Result := updateReg d (fun a => a ||| imm64 m) s

/-- `OR_REG` (R114): `x[d] <- x[d] | x[s]`. -/
def execOrReg (d : Reg) (r : Reg) (s : State) : Result := updateReg d (fun a => a ||| s.readReg r) s

/-- `AND_IMM` (R115): `x[d] <- x[d] & imm64`. -/
def execAndImm (d : Reg) (m : Imm) (s : State) : Result := updateReg d (fun a => a &&& imm64 m) s

/-- `AND_REG` (R116): `x[d] <- x[d] & x[s]`. -/
def execAndReg (d : Reg) (r : Reg) (s : State) : Result := updateReg d (fun a => a &&& s.readReg r) s

/-- `LSH_IMM` (R117): `x[d] <- x[d] << imm64[5:0]`. -/
def execLshImm (d : Reg) (m : Imm) (s : State) : Result := updateReg d (fun a => shiftLeft a (imm64 m)) s

/-- `LSH_REG` (R118): `x[d] <- x[d] << x[s][5:0]`. -/
def execLshReg (d : Reg) (r : Reg) (s : State) : Result := updateReg d (fun a => shiftLeft a (s.readReg r)) s

/-- `RSH_IMM` (R119): `x[d] <- x[d] >>u imm64[5:0]`. -/
def execRshImm (d : Reg) (m : Imm) (s : State) : Result := updateReg d (fun a => shiftRight a (imm64 m)) s

/-- `RSH_REG` (R120): `x[d] <- x[d] >>u x[s][5:0]`. -/
def execRshReg (d : Reg) (r : Reg) (s : State) : Result := updateReg d (fun a => shiftRight a (s.readReg r)) s

/-- `ARSH_IMM` (R121): `x[d] <- x[d] >>s imm64[5:0]`. -/
def execArshImm (d : Reg) (m : Imm) (s : State) : Result := updateReg d (fun a => shiftRightArith a (imm64 m)) s

/-- `ARSH_REG` (R122): `x[d] <- x[d] >>s x[s][5:0]`. -/
def execArshReg (d : Reg) (r : Reg) (s : State) : Result := updateReg d (fun a => shiftRightArith a (s.readReg r)) s

/-- `NEG_IMM` (R123): `x[d] <- 0 -64 x[d]`, the operand unused (C4, D3). -/
def execNegImm (d : Reg) (s : State) : Result := updateReg d (fun a => 0 - a) s

/-- `NEG_REG` (R124): `x[d] <- 0 -64 x[d]`, the operand unused (C4, D3). -/
def execNegReg (d : Reg) (s : State) : Result := updateReg d (fun a => 0 - a) s

/-- `MOD_IMM` (R125): traps on a zero operand, else `x[d] <- mod64(x[d], imm64)`. -/
def execModImm (d : Reg) (m : Imm) (s : State) : Result := updateRegUnlessZero d mod64 (imm64 m) s

/-- `MOD_REG` (R126): traps on a zero operand, else `x[d] <- mod64(x[d], x[s])`. -/
def execModReg (d : Reg) (r : Reg) (s : State) : Result := updateRegUnlessZero d mod64 (s.readReg r) s

/-- `XOR_IMM` (R127): `x[d] <- x[d] ^ imm64`. -/
def execXorImm (d : Reg) (m : Imm) (s : State) : Result := updateReg d (fun a => a ^^^ imm64 m) s

/-- `XOR_REG` (R128): `x[d] <- x[d] ^ x[s]`. -/
def execXorReg (d : Reg) (r : Reg) (s : State) : Result := updateReg d (fun a => a ^^^ s.readReg r) s

end Sys2Proof.Machine
end

