-- ==== Sys2Proof/Machine/Flags.lean ====
section
/-!
DEFINITION. This hardware has no flags (spec/10_state.md R16): no instruction writes or reads one. What another machine
would read from flags, a conditional jump here computes from its two values: the conditions of
spec/44_branch_call_exit.md R173 to R194 (the relation each mnemonic names: decision D27, log entry 8), and the
conditional jump itself.
-/

namespace Sys2Proof.Machine

/-- `JEQ` (R173, R174). -/
def condEq (a b : Word) : Bool := decide (a = b)

/-- `JNE` (R185, R186). -/
def condNe (a b : Word) : Bool := decide (a ≠ b)

/-- `JGT`, unsigned (R175, R176). -/
def condGt (a b : Word) : Bool := decide (a.toNat > b.toNat)

/-- `JGE`, unsigned (R177, R178). -/
def condGe (a b : Word) : Bool := decide (a.toNat ≥ b.toNat)

/-- `JLT`, unsigned (R179, R180). -/
def condLt (a b : Word) : Bool := decide (a.toNat < b.toNat)

/-- `JLE`, unsigned (R181, R182). -/
def condLe (a b : Word) : Bool := decide (a.toNat ≤ b.toNat)

/-- `JSET`: some bit set in both (R183, R184). -/
def condSet (a b : Word) : Bool := decide (a &&& b ≠ 0)

/-- `JSGT`, signed (R187, R188). -/
def condSgt (a b : Word) : Bool := decide (a.toInt > b.toInt)

/-- `JSGE`, signed (R189, R190). -/
def condSge (a b : Word) : Bool := decide (a.toInt ≥ b.toInt)

/-- `JSLT`, signed (R191, R192). -/
def condSlt (a b : Word) : Bool := decide (a.toInt < b.toInt)

/-- `JSLE`, signed (R193, R194). -/
def condSle (a b : Word) : Bool := decide (a.toInt ≤ b.toInt)

/-- A conditional jump: `jump_to` the target when the condition holds, else the next slot; the target of a jump that is
not taken is never computed (R170, R171). -/
def jumpIf (taken : Bool) (off : Off) (s : State) : Result :=
  if taken then jumpTo (jumpTarget off s) s else .next (s.advance 1)

end Sys2Proof.Machine
end

