-- ==== Sys2Proof/Machine/Branch.lean ====
section
/-!
DEFINITION. The branch family (spec/44_branch_call_exit.md R170 to R196).
-/

namespace Sys2Proof.Machine

/-- `JA` (R172): `jump_to(pc + 1 + signed(offset))`. -/
def execJa (o : Off) (s : State) : Result := jumpTo (jumpTarget o s) s

/-- `JEQ_IMM` (R173): jump when `x[d]` = `imm64`. -/
def execJeqImm (d : Reg) (o : Off) (m : Imm) (s : State) : Result := jumpIf (condEq (s.readReg d) (imm64 m)) o s

/-- `JEQ_REG` (R174): jump when `x[d]` = `x[s]`. -/
def execJeqReg (d : Reg) (r : Reg) (o : Off) (s : State) : Result := jumpIf (condEq (s.readReg d) (s.readReg r)) o s

/-- `JGT_IMM` (R175): jump when `x[d]` >, unsigned, `imm64`. -/
def execJgtImm (d : Reg) (o : Off) (m : Imm) (s : State) : Result := jumpIf (condGt (s.readReg d) (imm64 m)) o s

/-- `JGT_REG` (R176): jump when `x[d]` >, unsigned, `x[s]`. -/
def execJgtReg (d : Reg) (r : Reg) (o : Off) (s : State) : Result := jumpIf (condGt (s.readReg d) (s.readReg r)) o s

/-- `JGE_IMM` (R177): jump when `x[d]` >=, unsigned, `imm64`. -/
def execJgeImm (d : Reg) (o : Off) (m : Imm) (s : State) : Result := jumpIf (condGe (s.readReg d) (imm64 m)) o s

/-- `JGE_REG` (R178): jump when `x[d]` >=, unsigned, `x[s]`. -/
def execJgeReg (d : Reg) (r : Reg) (o : Off) (s : State) : Result := jumpIf (condGe (s.readReg d) (s.readReg r)) o s

/-- `JLT_IMM` (R179): jump when `x[d]` <, unsigned, `imm64`. -/
def execJltImm (d : Reg) (o : Off) (m : Imm) (s : State) : Result := jumpIf (condLt (s.readReg d) (imm64 m)) o s

/-- `JLT_REG` (R180): jump when `x[d]` <, unsigned, `x[s]`. -/
def execJltReg (d : Reg) (r : Reg) (o : Off) (s : State) : Result := jumpIf (condLt (s.readReg d) (s.readReg r)) o s

/-- `JLE_IMM` (R181): jump when `x[d]` <=, unsigned, `imm64`. -/
def execJleImm (d : Reg) (o : Off) (m : Imm) (s : State) : Result := jumpIf (condLe (s.readReg d) (imm64 m)) o s

/-- `JLE_REG` (R182): jump when `x[d]` <=, unsigned, `x[s]`. -/
def execJleReg (d : Reg) (r : Reg) (o : Off) (s : State) : Result := jumpIf (condLe (s.readReg d) (s.readReg r)) o s

/-- `JSET_IMM` (R183): jump when `x[d]` has a bit in common with `imm64`. -/
def execJsetImm (d : Reg) (o : Off) (m : Imm) (s : State) : Result := jumpIf (condSet (s.readReg d) (imm64 m)) o s

/-- `JSET_REG` (R184): jump when `x[d]` has a bit in common with `x[s]`. -/
def execJsetReg (d : Reg) (r : Reg) (o : Off) (s : State) : Result := jumpIf (condSet (s.readReg d) (s.readReg r)) o s

/-- `JNE_IMM` (R185): jump when `x[d]` != `imm64`. -/
def execJneImm (d : Reg) (o : Off) (m : Imm) (s : State) : Result := jumpIf (condNe (s.readReg d) (imm64 m)) o s

/-- `JNE_REG` (R186): jump when `x[d]` != `x[s]`. -/
def execJneReg (d : Reg) (r : Reg) (o : Off) (s : State) : Result := jumpIf (condNe (s.readReg d) (s.readReg r)) o s

/-- `JSGT_IMM` (R187): jump when `x[d]` >, signed, `imm64`. -/
def execJsgtImm (d : Reg) (o : Off) (m : Imm) (s : State) : Result := jumpIf (condSgt (s.readReg d) (imm64 m)) o s

/-- `JSGT_REG` (R188): jump when `x[d]` >, signed, `x[s]`. -/
def execJsgtReg (d : Reg) (r : Reg) (o : Off) (s : State) : Result := jumpIf (condSgt (s.readReg d) (s.readReg r)) o s

/-- `JSGE_IMM` (R189): jump when `x[d]` >=, signed, `imm64`. -/
def execJsgeImm (d : Reg) (o : Off) (m : Imm) (s : State) : Result := jumpIf (condSge (s.readReg d) (imm64 m)) o s

/-- `JSGE_REG` (R190): jump when `x[d]` >=, signed, `x[s]`. -/
def execJsgeReg (d : Reg) (r : Reg) (o : Off) (s : State) : Result := jumpIf (condSge (s.readReg d) (s.readReg r)) o s

/-- `JSLT_IMM` (R191): jump when `x[d]` <, signed, `imm64`. -/
def execJsltImm (d : Reg) (o : Off) (m : Imm) (s : State) : Result := jumpIf (condSlt (s.readReg d) (imm64 m)) o s

/-- `JSLT_REG` (R192): jump when `x[d]` <, signed, `x[s]`. -/
def execJsltReg (d : Reg) (r : Reg) (o : Off) (s : State) : Result := jumpIf (condSlt (s.readReg d) (s.readReg r)) o s

/-- `JSLE_IMM` (R193): jump when `x[d]` <=, signed, `imm64`. -/
def execJsleImm (d : Reg) (o : Off) (m : Imm) (s : State) : Result := jumpIf (condSle (s.readReg d) (imm64 m)) o s

/-- `JSLE_REG` (R194): jump when `x[d]` <=, signed, `x[s]`. -/
def execJsleReg (d : Reg) (r : Reg) (o : Off) (s : State) : Result := jumpIf (condSle (s.readReg d) (s.readReg r)) o s

/-- `CALL` (R195): with no resolver, or one that has no entry for the id, `Trap(UnsupportedCall(id))`; else
`x[0] <-` the resolver's answer for the id and the eleven registers, then `pc <- pc + 1` (D15, log entry 3). -/
def execCall (m : Imm) (s : State) : Result :=
  match s.resolver with
  | none => raiseTrap (.unsupportedCall m.toInt) s
  | some ids =>
    if m ∈ ids then updateReg 0 (fun _ => Config.callResult m s.regs) s
    else raiseTrap (.unsupportedCall m.toInt) s

/-- `EXIT` (R196): `halt(x[0])`; `pc` stays (D13, log entry 11). -/
def execExit (s : State) : Result := halt (s.readReg 0) s

end Sys2Proof.Machine
end

