-- ==== Sys2Proof/Machine/Byteswap.lean ====
section
/-!
DEFINITION. The byteswap family (spec/42_byteswap.md R130 to R136).
-/

namespace Sys2Proof.Machine

/-- `LE16` (R131): `x[d] <- zext_64(x[d][15:0])` (C1). -/
def execLe16 (d : Reg) (s : State) : Result := updateReg d (truncZext 16) s

/-- `LE32` (R132): `x[d] <- zext_64(x[d][31:0])` (C1). -/
def execLe32 (d : Reg) (s : State) : Result := updateReg d (truncZext 32) s

/-- `LE64` (R133): `x[d] <- zext_64(x[d][63:0])` (C1). -/
def execLe64 (d : Reg) (s : State) : Result := updateReg d (truncZext 64) s

/-- `BE16` (R134): the low 16 bits with their bytes reversed, zero-extended. -/
def execBe16 (d : Reg) (s : State) : Result := updateReg d (fun a => (byterev16 (a.setWidth 16)).setWidth 64) s

/-- `BE32` (R135): the low 32 bits with their bytes reversed, zero-extended. -/
def execBe32 (d : Reg) (s : State) : Result := updateReg d (fun a => (byterev32 (a.setWidth 32)).setWidth 64) s

/-- `BE64` (R136): the low 64 bits with their bytes reversed, zero-extended. -/
def execBe64 (d : Reg) (s : State) : Result := updateReg d (fun a => (byterev64 (a.setWidth 64)).setWidth 64) s

end Sys2Proof.Machine
end

