-- ==== Sys2Proof/Machine/LoadStore.lean ====
section
/-!
DEFINITION. The memory family (spec/43_memory_ops.md R140 to R165).
-/

namespace Sys2Proof.Machine

/-- `LDDW` (R141): `x[d]` from the `imm` of its own slot (low half) and of the next (high half), then `pc <- pc + 2`. -/
def execLddw (d : Reg) (lo : Imm) (hi : Imm) (s : State) : Result := .next ((s.writeReg d (wideImm lo hi)).advance 2)

/-- `LDABSB` (R143): 1 byte from `imm64` (D10, log entry 9). -/
def execLdabsb (d : Reg) (m : Imm) (s : State) : Result := loadReg d (absAddr m) .byte s

/-- `LDABSH` (R144): 2 bytes from `imm64` (D10, log entry 9). -/
def execLdabsh (d : Reg) (m : Imm) (s : State) : Result := loadReg d (absAddr m) .half s

/-- `LDABSW` (R145): 4 bytes from `imm64` (D10, log entry 9). -/
def execLdabsw (d : Reg) (m : Imm) (s : State) : Result := loadReg d (absAddr m) .word s

/-- `LDABSDW` (R146): 8 bytes from `imm64` (D10, log entry 9). -/
def execLdabsdw (d : Reg) (m : Imm) (s : State) : Result := loadReg d (absAddr m) .dword s

/-- `LDINDB` (R147): 1 byte from `x[s] +64 imm64` (D10, log entry 9). -/
def execLdindb (d : Reg) (r : Reg) (m : Imm) (s : State) : Result := loadReg d (indAddr r m s) .byte s

/-- `LDINDH` (R148): 2 bytes from `x[s] +64 imm64` (D10, log entry 9). -/
def execLdindh (d : Reg) (r : Reg) (m : Imm) (s : State) : Result := loadReg d (indAddr r m s) .half s

/-- `LDINDW` (R149): 4 bytes from `x[s] +64 imm64` (D10, log entry 9). -/
def execLdindw (d : Reg) (r : Reg) (m : Imm) (s : State) : Result := loadReg d (indAddr r m s) .word s

/-- `LDINDDW` (R150): 8 bytes from `x[s] +64 imm64` (D10, log entry 9). -/
def execLdinddw (d : Reg) (r : Reg) (m : Imm) (s : State) : Result := loadReg d (indAddr r m s) .dword s

/-- `LDXB` (R152): 1 byte from `x[s] +64 off64`. -/
def execLdxb (d : Reg) (r : Reg) (o : Off) (s : State) : Result := loadReg d (dispAddr r o s) .byte s

/-- `LDXH` (R153): 2 bytes from `x[s] +64 off64`. -/
def execLdxh (d : Reg) (r : Reg) (o : Off) (s : State) : Result := loadReg d (dispAddr r o s) .half s

/-- `LDXW` (R154): 4 bytes from `x[s] +64 off64`. -/
def execLdxw (d : Reg) (r : Reg) (o : Off) (s : State) : Result := loadReg d (dispAddr r o s) .word s

/-- `LDXDW` (R155): 8 bytes from `x[s] +64 off64`. -/
def execLdxdw (d : Reg) (r : Reg) (o : Off) (s : State) : Result := loadReg d (dispAddr r o s) .dword s

/-- `STB` (R157): the low 1 byte of `imm64` to `x[d] +64 off64` (D12, log entry 12). -/
def execStb (d : Reg) (o : Off) (m : Imm) (s : State) : Result := storeMem (dispAddr d o s) .byte (imm64 m) s

/-- `STH` (R158): the low 2 bytes of `imm64` to `x[d] +64 off64` (D12, log entry 12). -/
def execSth (d : Reg) (o : Off) (m : Imm) (s : State) : Result := storeMem (dispAddr d o s) .half (imm64 m) s

/-- `STW` (R159): the low 4 bytes of `imm64` to `x[d] +64 off64` (D12, log entry 12). -/
def execStw (d : Reg) (o : Off) (m : Imm) (s : State) : Result := storeMem (dispAddr d o s) .word (imm64 m) s

/-- `STDW` (R160): the low 8 bytes of `imm64` to `x[d] +64 off64` (D12, log entry 12). -/
def execStdw (d : Reg) (o : Off) (m : Imm) (s : State) : Result := storeMem (dispAddr d o s) .dword (imm64 m) s

/-- `STXB` (R162): the low 1 byte of `x[s]` to `x[d] +64 off64` (D12, log entry 12). -/
def execStxb (d : Reg) (r : Reg) (o : Off) (s : State) : Result := storeMem (dispAddr d o s) .byte (s.readReg r) s

/-- `STXH` (R163): the low 2 bytes of `x[s]` to `x[d] +64 off64` (D12, log entry 12). -/
def execStxh (d : Reg) (r : Reg) (o : Off) (s : State) : Result := storeMem (dispAddr d o s) .half (s.readReg r) s

/-- `STXW` (R164): the low 4 bytes of `x[s]` to `x[d] +64 off64` (D12, log entry 12). -/
def execStxw (d : Reg) (r : Reg) (o : Off) (s : State) : Result := storeMem (dispAddr d o s) .word (s.readReg r) s

/-- `STXDW` (R165): the low 8 bytes of `x[s]` to `x[d] +64 off64` (D12, log entry 12). -/
def execStxdw (d : Reg) (r : Reg) (o : Off) (s : State) : Result := storeMem (dispAddr d o s) .dword (s.readReg r) s

end Sys2Proof.Machine
end

