-- ==== Sys2Proof/Machine/Dispatch.lean ====
section
/-!
DEFINITION. Dispatch: one arm per constructor of `Instr`, each one call of the instruction's own meaning
(spec/40_execution_step.md R76).
-/

namespace Sys2Proof.Machine

def exec (i : Instr) (s : State) : Host.Outcome State Fault Refusal :=
  match i with
  -- ALU64 family (spec/41_alu64.md)
  | .movImm d m => Sys2Proof.Machine.execMovImm d m s
  | .movReg d r => Sys2Proof.Machine.execMovReg d r s
  | .addImm d m => Sys2Proof.Machine.execAddImm d m s
  | .addReg d r => Sys2Proof.Machine.execAddReg d r s
  | .subImm d m => Sys2Proof.Machine.execSubImm d m s
  | .subReg d r => Sys2Proof.Machine.execSubReg d r s
  | .mulImm d m => Sys2Proof.Machine.execMulImm d m s
  | .mulReg d r => Sys2Proof.Machine.execMulReg d r s
  | .divImm d m => Sys2Proof.Machine.execDivImm d m s
  | .divReg d r => Sys2Proof.Machine.execDivReg d r s
  | .orImm d m => Sys2Proof.Machine.execOrImm d m s
  | .orReg d r => Sys2Proof.Machine.execOrReg d r s
  | .andImm d m => Sys2Proof.Machine.execAndImm d m s
  | .andReg d r => Sys2Proof.Machine.execAndReg d r s
  | .lshImm d m => Sys2Proof.Machine.execLshImm d m s
  | .lshReg d r => Sys2Proof.Machine.execLshReg d r s
  | .rshImm d m => Sys2Proof.Machine.execRshImm d m s
  | .rshReg d r => Sys2Proof.Machine.execRshReg d r s
  | .arshImm d m => Sys2Proof.Machine.execArshImm d m s
  | .arshReg d r => Sys2Proof.Machine.execArshReg d r s
  | .negImm d => Sys2Proof.Machine.execNegImm d s
  | .negReg d => Sys2Proof.Machine.execNegReg d s
  | .modImm d m => Sys2Proof.Machine.execModImm d m s
  | .modReg d r => Sys2Proof.Machine.execModReg d r s
  | .xorImm d m => Sys2Proof.Machine.execXorImm d m s
  | .xorReg d r => Sys2Proof.Machine.execXorReg d r s
  -- Byteswap family (spec/42_byteswap.md)
  | .le16 d => Sys2Proof.Machine.execLe16 d s
  | .le32 d => Sys2Proof.Machine.execLe32 d s
  | .le64 d => Sys2Proof.Machine.execLe64 d s
  | .be16 d => Sys2Proof.Machine.execBe16 d s
  | .be32 d => Sys2Proof.Machine.execBe32 d s
  | .be64 d => Sys2Proof.Machine.execBe64 d s
  -- Memory family (spec/43_memory_ops.md)
  | .lddw d lo hi => Sys2Proof.Machine.execLddw d lo hi s
  | .ldabsb d m => Sys2Proof.Machine.execLdabsb d m s
  | .ldabsh d m => Sys2Proof.Machine.execLdabsh d m s
  | .ldabsw d m => Sys2Proof.Machine.execLdabsw d m s
  | .ldabsdw d m => Sys2Proof.Machine.execLdabsdw d m s
  | .ldindb d r m => Sys2Proof.Machine.execLdindb d r m s
  | .ldindh d r m => Sys2Proof.Machine.execLdindh d r m s
  | .ldindw d r m => Sys2Proof.Machine.execLdindw d r m s
  | .ldinddw d r m => Sys2Proof.Machine.execLdinddw d r m s
  | .ldxb d r o => Sys2Proof.Machine.execLdxb d r o s
  | .ldxh d r o => Sys2Proof.Machine.execLdxh d r o s
  | .ldxw d r o => Sys2Proof.Machine.execLdxw d r o s
  | .ldxdw d r o => Sys2Proof.Machine.execLdxdw d r o s
  | .stb d o m => Sys2Proof.Machine.execStb d o m s
  | .sth d o m => Sys2Proof.Machine.execSth d o m s
  | .stw d o m => Sys2Proof.Machine.execStw d o m s
  | .stdw d o m => Sys2Proof.Machine.execStdw d o m s
  | .stxb d r o => Sys2Proof.Machine.execStxb d r o s
  | .stxh d r o => Sys2Proof.Machine.execStxh d r o s
  | .stxw d r o => Sys2Proof.Machine.execStxw d r o s
  | .stxdw d r o => Sys2Proof.Machine.execStxdw d r o s
  -- Branch family (spec/44_branch_call_exit.md)
  | .ja o => Sys2Proof.Machine.execJa o s
  | .jeqImm d o m => Sys2Proof.Machine.execJeqImm d o m s
  | .jeqReg d r o => Sys2Proof.Machine.execJeqReg d r o s
  | .jgtImm d o m => Sys2Proof.Machine.execJgtImm d o m s
  | .jgtReg d r o => Sys2Proof.Machine.execJgtReg d r o s
  | .jgeImm d o m => Sys2Proof.Machine.execJgeImm d o m s
  | .jgeReg d r o => Sys2Proof.Machine.execJgeReg d r o s
  | .jltImm d o m => Sys2Proof.Machine.execJltImm d o m s
  | .jltReg d r o => Sys2Proof.Machine.execJltReg d r o s
  | .jleImm d o m => Sys2Proof.Machine.execJleImm d o m s
  | .jleReg d r o => Sys2Proof.Machine.execJleReg d r o s
  | .jsetImm d o m => Sys2Proof.Machine.execJsetImm d o m s
  | .jsetReg d r o => Sys2Proof.Machine.execJsetReg d r o s
  | .jneImm d o m => Sys2Proof.Machine.execJneImm d o m s
  | .jneReg d r o => Sys2Proof.Machine.execJneReg d r o s
  | .jsgtImm d o m => Sys2Proof.Machine.execJsgtImm d o m s
  | .jsgtReg d r o => Sys2Proof.Machine.execJsgtReg d r o s
  | .jsgeImm d o m => Sys2Proof.Machine.execJsgeImm d o m s
  | .jsgeReg d r o => Sys2Proof.Machine.execJsgeReg d r o s
  | .jsltImm d o m => Sys2Proof.Machine.execJsltImm d o m s
  | .jsltReg d r o => Sys2Proof.Machine.execJsltReg d r o s
  | .jsleImm d o m => Sys2Proof.Machine.execJsleImm d o m s
  | .jsleReg d r o => Sys2Proof.Machine.execJsleReg d r o s
  | .call m => Sys2Proof.Machine.execCall m s
  | .exit => Sys2Proof.Machine.execExit s

end Sys2Proof.Machine
end

