-- ==== Sys2Proof/Machine/Driver.lean ====
section
/-!
DEFINITION. The execution driver: fetch, and one step around the instruction's own meaning
(spec/40_execution_step.md R70 to R79); placing a table word where the next step fetches it.
-/

namespace Sys2Proof.Machine

/-- Fetch (R73): slot `pc` and the slot after it, if the program has one (read by `LDDW` only); `none` when `pc >= N`. -/
def fetch (prog : List Slot) (pc : Nat) : Option (Slot × Option Slot) :=
  match prog[pc]? with
  | none => none
  | some sl => some (sl, prog[pc + 1]?)

/-- The part of a step after the status test: end of program (R72), recognition and register check (R74, R75), then the
instruction's own rule (R76). -/
def runSlot (run : Instr → State → Result) (s : State) : Result :=
  match fetch s.prog s.pc with
  | none => halt (s.readReg 0) s
  | some (sl, following) =>
    match decode sl following with
    | .error e => raiseTrap (trapOfReject e) s
    | .ok i => run i s

/-- One step (R79): a terminal status absorbs it (R71); else the status becomes `Running` and the slot at `pc` runs. -/
def stepWith (run : Instr → State → Result) (s : State) : Result :=
  if s.status.terminal then .next s else runSlot run (s.setStatus .running)

/-- An all-zero slot: filler before the place of a stored word, where a program is shorter than that. -/
def zeroSlot : Slot := slotOf 0 0 0 0 0

/-- The program with `new` in place of the slots from `k` on, as many as `new` has. -/
def placeSlots (prog : List Slot) (k : Nat) (new : List Slot) : List Slot :=
  (prog ++ List.replicate (k - prog.length) zeroSlot).take k ++ new ++ prog.drop (k + new.length)

/-- The state with `new` where the next step fetches: at `pc`, and in a status that lets a step run (a run that has
ended can only be followed by another load and reset, R231). Log entry 15. -/
def State.placeFetch (s : State) (new : List Slot) : State :=
  { s with
    prog := placeSlots s.prog s.pc new
    status := if s.status.terminal then .ready else s.status }

end Sys2Proof.Machine
end

