-- ==== Sys2Proof/Machine/Step.lean ====
section
/-!
DEFINITION. The step of the machine (spec/40_execution_step.md R79), and the placing of a table word for the next step.
-/

namespace Sys2Proof.Machine

/-- One step: the driver's frame around `exec` (R70 to R79). -/
def step (s : State) : Host.Outcome State Fault Refusal := stepWith exec s

/-- The state with a table word stored where the next step fetches its instruction; it stands for the load that brings
a program into the machine (R231; log entries 2, 15). -/
def State.withFetchWord (s : State) (nbits w : Nat) : State := s.placeFetch (tableSlots nbits w)

end Sys2Proof.Machine
end

