-- ==== Sys2Proof/Machine/Interface.lean ====
section
/-!
DEFINITION. The transactions between host and machine (spec/40_execution_step.md R81): load, and reading the result
(spec/10_state.md R25). Stepping is `step`; a run under the host's fuel is `Host.Core.run` (R80, D23).
-/

namespace Sys2Proof.Machine

/-- The initial state of a run of a loaded program (R231), with the call resolver the host supplies or none. -/
def State.init (prog : List Slot) (resolver : Option (List Imm)) : State :=
  { State.reset with prog := prog, resolver := resolver }

/-- The answers of the load other than a state. -/
inductive LoadError where
  /-- The decoder's error: there is no program and no run (R52, R207). -/
  | decode (e : DecodeError)
  /-- A program of `slots` slots, more than the block's `PROG_MAX` (R4; U14 of spec/93_implementation_defined.md lets a
  model refuse it at load). DESIGN CHOICE, log entry 5. -/
  | programTooLong (slots : Nat)
  deriving DecidableEq, Repr

/-- Whether the block accepts a program of `n` slots. `progMax` is the OPEN parameter `PROG_MAX`, "largest `N` the block
accepts" (R4, decision D16); `none` is a block without a limit, since the document gives none. Log entry 5. -/
def acceptsLength (progMax : Option Nat) (n : Nat) : Bool :=
  match progMax with
  | none => true
  | some m => decide (n ≤ m)

/-- Load then reset (R231 steps 1 and 2), for a block with the parameter `PROG_MAX` and the call resolver of the
arguments: both rows that R4 marks OPEN. On a misaligned buffer there is no run (R52, R207). -/
def load (progMax : Option Nat) (bytes : List Byte) (resolver : Option (List Imm)) : Except LoadError State :=
  match decodeProgram bytes with
  | .error e => .error (.decode e)
  | .ok prog =>
    if acceptsLength progMax prog.length then .ok (State.init prog resolver) else .error (.programTooLong prog.length)

/-- `ExecutionResult` (R25): each register read as signed, every byte of memory in address order, the terminal status. -/
structure ExecutionResult where
  finalRegisters : List Int
  finalMemory    : List Byte
  outcome        : Status
  deriving DecidableEq, Repr

/-- What the host reads, once the status is terminal (R25). -/
def State.result (s : State) : Option ExecutionResult :=
  if s.status.terminal then
    some { finalRegisters := s.regs.toList.map BitVec.toInt
           finalMemory := (List.range Config.memorySize).map s.mem.readByte
           outcome := s.status }
  else none

end Sys2Proof.Machine
end

