-- ==== Sys2Proof/Safety.lean ====
section
/-!
DEFINITION. The terms claims use: what stays the same, what completing with a result means, the six trap reasons' causes
(spec/60_exceptions.md R200), the registers and the memory an instruction names (spec/10_state.md R11), and the invariant
of the machine.
-/

namespace Sys2Proof.Machine

/-! ### What stays the same -/

/-- Every register reads as before. -/
def SameRegs (s t : State) : Prop := ∀ r : Reg, t.readReg r = s.readReg r

/-- Every register but `d` reads as before. -/
def SameRegsBut (d : Reg) (s t : State) : Prop := ∀ r : Reg, r ≠ d → t.readReg r = s.readReg r

/-- Every byte of memory reads as before. -/
def SameMem (s t : State) : Prop := ∀ a : Nat, t.mem.readByte a = s.mem.readByte a

/-- Every byte of memory outside the `n` bytes from address `A` on reads as before. -/
def SameMemOutside (A : Int) (n : Nat) (s t : State) : Prop :=
  ∀ a : Nat, (a : Int) < A ∨ A + n ≤ (a : Int) → t.mem.readByte a = s.mem.readByte a

/-- The program store and the call resolver are as before. -/
def SameProgram (s t : State) : Prop := t.prog = s.prog ∧ t.resolver = s.resolver

/-- Nothing but the status has changed (R78, R210). -/
def OnlyStatus (s t : State) : Prop := SameRegs s t ∧ SameMem s t ∧ t.pc = s.pc ∧ SameProgram s t

/-! ### How an instruction answers -/

/-- Executing `i` in `s` gives a next state in which `x[d]` satisfies `P`, `pc` has advanced by `n` slots, and nothing
else has changed: no other register, no byte of memory, not the status, not the program. -/
def WritesReg (i : Instr) (s : State) (d : Reg) (n : Nat) (P : Word → Prop) : Prop :=
  ∃ t, exec i s = .next t ∧ P (t.readReg d) ∧ SameRegsBut d s t ∧ SameMem s t ∧ t.pc = s.pc + n ∧
    t.status = s.status ∧ SameProgram s t

/-- Executing `i` in `s` gives a next state in which byte `j` of the `n` bytes from address `A` on holds `v j`, `pc` has
advanced by one slot, and nothing else has changed: no register, no other byte, not the status, not the program. -/
def StoresBytes (i : Instr) (s : State) (A : Int) (n : Nat) (v : Nat → Int) : Prop :=
  ∃ t, exec i s = .next t ∧ (∀ j : Nat, j < n → ((t.mem.readByte (A.toNat + j)).toNat : Int) = v j) ∧
    SameMemOutside A n s t ∧ SameRegs s t ∧ t.pc = s.pc + 1 ∧ t.status = s.status ∧ SameProgram s t

/-- Executing `i` in `s` gives a next state with `pc` at `target` and nothing else changed. -/
def GoesTo (i : Instr) (s : State) (target : Nat) : Prop :=
  ∃ t, exec i s = .next t ∧ t.pc = target ∧ SameRegs s t ∧ SameMem s t ∧ t.status = s.status ∧ SameProgram s t

/-- Executing `i` in `s` takes the trap `reason`: a next state whose status records it, and nothing else changed. -/
def TakesTrap (i : Instr) (s : State) (reason : Trap) : Prop :=
  ∃ t, exec i s = .next t ∧ t.status = .faulted reason ∧ OnlyStatus s t

/-- The three ways of a conditional jump whose condition is `c`, `offset` slots away: taken to a target that exists, not
taken, taken to a negative target. -/
def JumpsOn (i : Instr) (s : State) (offset : Off) (c : Prop) : Prop :=
  (c → 0 ≤ (s.pc : Int) + 1 + offset.toInt → GoesTo i s ((s.pc : Int) + 1 + offset.toInt).toNat) ∧
  (¬c → GoesTo i s (s.pc + 1)) ∧
  (c → (s.pc : Int) + 1 + offset.toInt < 0 → TakesTrap i s (.invalidJumpTarget ((s.pc : Int) + 1 + offset.toInt)))

/-- One step of the machine from `s` takes the trap `reason`, and nothing else changes. -/
def StepTakesTrap (s : State) (reason : Trap) : Prop :=
  ∃ t, step s = .next t ∧ t.status = .faulted reason ∧ OnlyStatus s t

/-- `k` steps lead from `s` to `t` (a run under the host's fuel, R80). -/
def StepsTo : Nat → State → State → Prop
  | 0, s, t => t = s
  | k + 1, s, t => ∃ u, step s = .next u ∧ StepsTo k u t

/-- The signed address is inside the memory for an access of `n` bytes (R32). -/
abbrev Admitted (A : Int) (n : Nat) : Prop := 0 ≤ A ∧ A + n ≤ 65536

/-- The unsigned number spelled by the `n` bytes from address `a` on, the lowest address least significant (R31). -/
def bytesValue (m : Memory) (a n : Nat) : Nat := ∑ j ∈ Finset.range n, (m.readByte (a + j)).toNat * 2 ^ (8 * j)

/-! ### What an instruction names -/

/-- The register an instruction writes, if it writes one (R11): `dest`, or `x[0]` for a `CALL`. -/
def writtenReg : Instr → Option Reg
  | .movImm d _ | .movReg d _ | .addImm d _ | .addReg d _ | .subImm d _ | .subReg d _ | .mulImm d _
  | .mulReg d _ | .divImm d _ | .divReg d _ | .orImm d _ | .orReg d _ | .andImm d _ | .andReg d _ | .lshImm d _
  | .lshReg d _ | .rshImm d _ | .rshReg d _ | .arshImm d _ | .arshReg d _ | .modImm d _ | .modReg d _
  | .xorImm d _ | .xorReg d _ | .negImm d | .negReg d | .le16 d | .le32 d | .le64 d | .be16 d | .be32 d
  | .be64 d | .lddw d _ _ | .ldabsb d _ | .ldabsh d _ | .ldabsw d _ | .ldabsdw d _ | .ldindb d _ _
  | .ldindh d _ _ | .ldindw d _ _ | .ldinddw d _ _ | .ldxb d _ _ | .ldxh d _ _ | .ldxw d _ _ | .ldxdw d _ _ => some d
  | .call _ => some 0
  | .stb _ _ _ | .sth _ _ _ | .stw _ _ _ | .stdw _ _ _ | .stxb _ _ _ | .stxh _ _ _ | .stxw _ _ _ | .stxdw _ _ _
  | .jeqImm _ _ _ | .jeqReg _ _ _ | .jgtImm _ _ _ | .jgtReg _ _ _ | .jgeImm _ _ _ | .jgeReg _ _ _
  | .jltImm _ _ _ | .jltReg _ _ _ | .jleImm _ _ _ | .jleReg _ _ _ | .jsetImm _ _ _ | .jsetReg _ _ _
  | .jneImm _ _ _ | .jneReg _ _ _ | .jsgtImm _ _ _ | .jsgtReg _ _ _ | .jsgeImm _ _ _ | .jsgeReg _ _ _
  | .jsltImm _ _ _ | .jsltReg _ _ _ | .jsleImm _ _ _ | .jsleReg _ _ _ | .ja _ | .exit => none

/-- The memory access of an instruction, if it makes one: its address and width (R140, R142). -/
def memAccess (i : Instr) (s : State) : Option (Word × Width) :=
  match i with
  | .ldabsb _ m => some (absAddr m, .byte)
  | .ldabsh _ m => some (absAddr m, .half)
  | .ldabsw _ m => some (absAddr m, .word)
  | .ldabsdw _ m => some (absAddr m, .dword)
  | .ldindb _ r m => some (indAddr r m s, .byte)
  | .ldindh _ r m => some (indAddr r m s, .half)
  | .ldindw _ r m => some (indAddr r m s, .word)
  | .ldinddw _ r m => some (indAddr r m s, .dword)
  | .ldxb _ r o => some (dispAddr r o s, .byte)
  | .ldxh _ r o => some (dispAddr r o s, .half)
  | .ldxw _ r o => some (dispAddr r o s, .word)
  | .ldxdw _ r o => some (dispAddr r o s, .dword)
  | .stb d o _ => some (dispAddr d o s, .byte)
  | .sth d o _ => some (dispAddr d o s, .half)
  | .stw d o _ => some (dispAddr d o s, .word)
  | .stdw d o _ => some (dispAddr d o s, .dword)
  | .stxb d _ o => some (dispAddr d o s, .byte)
  | .stxh d _ o => some (dispAddr d o s, .half)
  | .stxw d _ o => some (dispAddr d o s, .word)
  | .stxdw d _ o => some (dispAddr d o s, .dword)
  | _ => none

/-- Whether an instruction is one of the eight stores, the only ones that write memory. -/
def isStore : Instr → Bool
  | .stb _ _ _ | .sth _ _ _ | .stw _ _ _ | .stdw _ _ _ | .stxb _ _ _ | .stxh _ _ _ | .stxw _ _ _ | .stxdw _ _ _ => true
  | _ => false

/-- The divisor of `DIV` and `MOD` (R111, R112, R125, R126). -/
def divisor (i : Instr) (s : State) : Option Word :=
  match i with
  | .divImm _ m | .modImm _ m => some (imm64 m)
  | .divReg _ r | .modReg _ r => some (s.readReg r)
  | _ => none

/-- The offset of a jump that is taken (R171 to R194). -/
def takenOffset (i : Instr) (s : State) : Option Off :=
  match i with
  | .ja o => some o
  | .jeqImm d o m => if condEq (s.readReg d) (imm64 m) then some o else none
  | .jeqReg d r o => if condEq (s.readReg d) (s.readReg r) then some o else none
  | .jgtImm d o m => if condGt (s.readReg d) (imm64 m) then some o else none
  | .jgtReg d r o => if condGt (s.readReg d) (s.readReg r) then some o else none
  | .jgeImm d o m => if condGe (s.readReg d) (imm64 m) then some o else none
  | .jgeReg d r o => if condGe (s.readReg d) (s.readReg r) then some o else none
  | .jltImm d o m => if condLt (s.readReg d) (imm64 m) then some o else none
  | .jltReg d r o => if condLt (s.readReg d) (s.readReg r) then some o else none
  | .jleImm d o m => if condLe (s.readReg d) (imm64 m) then some o else none
  | .jleReg d r o => if condLe (s.readReg d) (s.readReg r) then some o else none
  | .jsetImm d o m => if condSet (s.readReg d) (imm64 m) then some o else none
  | .jsetReg d r o => if condSet (s.readReg d) (s.readReg r) then some o else none
  | .jneImm d o m => if condNe (s.readReg d) (imm64 m) then some o else none
  | .jneReg d r o => if condNe (s.readReg d) (s.readReg r) then some o else none
  | .jsgtImm d o m => if condSgt (s.readReg d) (imm64 m) then some o else none
  | .jsgtReg d r o => if condSgt (s.readReg d) (s.readReg r) then some o else none
  | .jsgeImm d o m => if condSge (s.readReg d) (imm64 m) then some o else none
  | .jsgeReg d r o => if condSge (s.readReg d) (s.readReg r) then some o else none
  | .jsltImm d o m => if condSlt (s.readReg d) (imm64 m) then some o else none
  | .jsltReg d r o => if condSlt (s.readReg d) (s.readReg r) then some o else none
  | .jsleImm d o m => if condSle (s.readReg d) (imm64 m) then some o else none
  | .jsleReg d r o => if condSle (s.readReg d) (s.readReg r) then some o else none
  | _ => none

/-- The registers an instruction reads or writes (R11): those its used fields name, `x[0]` for `EXIT`, and all eleven for
a `CALL`, whose resolver is given them all (R195). -/
def touchedRegs : Instr → List Reg
  | .movImm d _ | .addImm d _ | .subImm d _ | .mulImm d _ | .divImm d _ | .orImm d _ | .andImm d _
  | .lshImm d _ | .rshImm d _ | .arshImm d _ | .modImm d _ | .xorImm d _ | .negImm d | .negReg d | .le16 d
  | .le32 d | .le64 d | .be16 d | .be32 d | .be64 d | .lddw d _ _ | .ldabsb d _ | .ldabsh d _ | .ldabsw d _
  | .ldabsdw d _ | .stb d _ _ | .sth d _ _ | .stw d _ _ | .stdw d _ _ | .jeqImm d _ _ | .jgtImm d _ _
  | .jgeImm d _ _ | .jltImm d _ _ | .jleImm d _ _ | .jsetImm d _ _ | .jneImm d _ _ | .jsgtImm d _ _
  | .jsgeImm d _ _ | .jsltImm d _ _ | .jsleImm d _ _ => [d]
  | .movReg d r | .addReg d r | .subReg d r | .mulReg d r | .divReg d r | .orReg d r | .andReg d r
  | .lshReg d r | .rshReg d r | .arshReg d r | .modReg d r | .xorReg d r | .ldindb d r _ | .ldindh d r _
  | .ldindw d r _ | .ldinddw d r _ | .ldxb d r _ | .ldxh d r _ | .ldxw d r _ | .ldxdw d r _ | .stxb d r _
  | .stxh d r _ | .stxw d r _ | .stxdw d r _ | .jeqReg d r _ | .jgtReg d r _ | .jgeReg d r _ | .jltReg d r _
  | .jleReg d r _ | .jsetReg d r _ | .jneReg d r _ | .jsgtReg d r _ | .jsgeReg d r _ | .jsltReg d r _
  | .jsleReg d r _ => [d, r]
  | .ja _ => []
  | .exit => [0]
  | .call _ => List.finRange 11

/-! ### Traps -/

/-- The host supplied no resolver, or one without an entry for this id (R195, R204). -/
def unresolved (m : Imm) (s : State) : Prop := ∀ ids, s.resolver = some ids → m ∉ ids

/-- The instruction's own trap, by the table of R200: which instruction raises the reason, and when. -/
def ownTrap (i : Instr) (s : State) : Trap → Prop
  | .invalidOpcode _ => False
  | .invalidRegister _ => False
  | .memoryFault A w => ∃ addr, memAccess i s = some (addr, w) ∧ A = addr.toInt ∧ ¬Admitted A (Width.bytes w)
  | .divisionByZero => divisor i s = some 0
  | .unsupportedCall id => ∃ m, i = .call m ∧ id = m.toInt ∧ unresolved m s
  | .invalidJumpTarget target => ∃ o, takenOffset i s = some o ∧ target = (s.pc : Int) + 1 + o.toInt ∧ target < 0

/-- The payloads the table of R200 gives each reason. -/
def Trap.legal : Trap → Prop
  | .invalidOpcode _ => True
  | .invalidRegister f => 11 ≤ f.toNat
  | .memoryFault A w => -2 ^ 63 ≤ A ∧ A < 2 ^ 63 ∧ ¬Admitted A (Width.bytes w)
  | .divisionByZero => True
  | .unsupportedCall id => -2 ^ 31 ≤ id ∧ id < 2 ^ 31
  | .invalidJumpTarget target => -32767 ≤ target ∧ target ≤ -1

/-! ### Ignored fields -/

/-- The opcode bytes whose instructions do not read `offset` (R59): all but `LDX*`, `ST*`, `STX*` and the jumps. -/
def ignoresOffset (opcode : Byte) : Bool :=
  opcode ∈ ([0xb7, 0xbf, 0x07, 0x0f, 0x17, 0x1f, 0x27, 0x2f, 0x37, 0x3f, 0x47, 0x4f, 0x57, 0x5f, 0x67, 0x6f, 0x77, 0x7f] ++
    [0xc7, 0xcf, 0x87, 0x8f, 0x97, 0x9f, 0xa7, 0xaf, 0xd4, 0xdc, 0x18, 0x30, 0x28, 0x20, 0x38, 0x50, 0x48, 0x40, 0x58] ++
    [0x85, 0x95] : List Byte)

/-- The opcode bytes whose instructions do not read `imm` (R59): the ALU64 `_REG` forms, both `NEG` forms, `LDX*`,
`STX*`, `JA`, the conditional `_REG` jumps, `EXIT`. -/
def ignoresImm (opcode : Byte) : Bool :=
  opcode ∈ ([0xbf, 0x0f, 0x1f, 0x2f, 0x3f, 0x4f, 0x5f, 0x6f, 0x7f, 0xcf, 0x87, 0x8f, 0x9f, 0xaf, 0x71, 0x69, 0x61, 0x79] ++
    [0x73, 0x6b, 0x63, 0x7b, 0x05, 0x1d, 0x2d, 0x3d, 0xad, 0xbd, 0x4d, 0x5d, 0x6d, 0x7d, 0xcd, 0xdd, 0x95] : List Byte)

/-- The opcode bytes whose instructions do not read `src` beyond the range check (R59): the ALU64 `_IMM` forms, both
`NEG` forms, the byteswaps, `LDDW`, `LDABS*`, `ST*`, `JA`, the conditional `_IMM` jumps, `CALL`, `EXIT`. -/
def ignoresSrc (opcode : Byte) : Bool :=
  opcode ∈ ([0xb7, 0x07, 0x17, 0x27, 0x37, 0x47, 0x57, 0x67, 0x77, 0xc7, 0x97, 0xa7, 0x87, 0x8f, 0xd4, 0xdc, 0x18, 0x30] ++
    [0x28, 0x20, 0x38, 0x72, 0x6a, 0x62, 0x7a, 0x05, 0x15, 0x25, 0x35, 0xa5, 0xb5, 0x45, 0x55, 0x65, 0x75, 0xc5, 0xd5] ++
    [0x85, 0x95] : List Byte)

/-- The opcode bytes whose instructions do not read `dest` beyond the range check (R59): `JA`, `CALL`, `EXIT`. -/
def ignoresDest (opcode : Byte) : Bool := opcode ∈ ([0x05, 0x85, 0x95] : List Byte)

/-- Two slots that differ only in fields their opcode ignores, register fields naming registers in both (R59). -/
def SameUsedFields (a b : Slot) : Prop :=
  a.opcode = b.opcode ∧ a.destOk ∧ b.destOk ∧ a.srcOk ∧ b.srcOk ∧
  (ignoresOffset a.opcode = false → a.offset = b.offset) ∧ (ignoresImm a.opcode = false → a.imm = b.imm) ∧
  (ignoresSrc a.opcode = false → a.src = b.src) ∧ (ignoresDest a.opcode = false → a.dest = b.dest)

/-! ### The invariant -/

/-- The invariant of the machine, from its rules' prose: the memory keeps its canonical form (the model's own); `pc` is at
most `N + 32767` (R14); in `Ready` nothing has run (R17, R23); the exit code is `x[0]` (R78); a recorded reason has a
payload of R200, and `pc` identifies a slot that trapped (R211). -/
structure State.Inv (s : State) : Prop where
  memory : s.mem.wf = true
  pcBound : s.pc ≤ s.prog.length + 32767
  ready : s.status = .ready → s.pc = 0 ∧ s.mem = [] ∧ ∀ r : Reg, s.readReg r = 0
  exitCode : ∀ c, s.status = .halted c → c = s.readReg 0
  reason : ∀ r, s.status = .faulted r → r.legal ∧ s.pc < s.prog.length

end Sys2Proof.Machine
end

