-- ==== Sys2Proof/Certificates/Slice0/Obligations.lean ====
section
/-!
DEFINITION. The statements for the provers. A statement that rests on a decision, an inference or general knowledge that the
spec marks as its own, or on a choice of the model, says so and names it (`D<n>` of spec/92_eei_decisions.md, or a log entry).
-/

open Sys2Proof Sys2Proof.Machine

/-- `O1`. For every instruction, with every value of every operand, and whatever bytes follow: decoding its encoding gives
exactly that instruction. The opcode byte values are the spec's decision D1 (log entry 7). [derived: 30_encoding.md
section 1, 30_encoding.md section 4, 30_encoding.md section 6, 92_eei_decisions.md D1] -/
def Obligations.EncodeThenDecode : Prop :=
  ∀ (i : Instr) (rest : List Byte), decodeBytes (encodeBytes i ++ rest) = some i

/-- `O2`. A slot, given the slot after it if there is one, decodes to some instruction if and only if its opcode byte is
one of the 74, a byteswap selector is 16, 32 or 64, an LDDW has a second slot, and both register fields are at most
10. Rests on the decisions D1, D6, D8, D9 (log entries 7 and 10). [derived: 40_execution_step.md section 2,
30_encoding.md section 4, 30_encoding.md section 5, 92_eei_decisions.md D1, D6, D8, D9] -/
def Obligations.DecodeAcceptsExactlyWellFormed : Prop :=
  ∀ (sl : Slot) (following : Option Slot), (∃ i, decode sl following = .ok i) ↔ sl.WellFormed following

/-- `O3`. When a slot decodes to an instruction, the first slot of that instruction's encoding has the same opcode byte,
and each of its other four fields is the original field or zero; where the instruction has a second slot, that slot
has the imm of the slot that followed. That an ignored field is dropped to zero is the model's choice (log entry 14).
[derived: 30_encoding.md section 4, 30_encoding.md section 5, 30_encoding.md section 6] -/
def Obligations.ReencodingKeepsOrZeroesEachField : Prop :=
  ∀ (sl : Slot) (following : Option Slot) (i : Instr), decode sl following = .ok i →
    ∃ e rest, encode i = e :: rest ∧ e.opcode = sl.opcode ∧ (e.dest = sl.dest ∨ e.dest = 0) ∧ (e.src = sl.src ∨ e.src = 0) ∧
      (e.offset = sl.offset ∨ e.offset = 0) ∧ (e.imm = sl.imm ∨ e.imm = 0) ∧
      (rest = [] ∨ ∃ second e2, following = some second ∧ rest = [e2] ∧ e2.imm = second.imm)

/-- `O4`. Two slots with the same opcode byte that differ only in fields this opcode ignores, with register fields at most
10 in both, decode alike, whatever the slots after them, provided both have one or neither has and, for LDDW (0x18),
the following slots have the same imm: nothing else of LDDW's second slot is looked at. Which fields are ignored rests
on D8 and D9. [derived: 30_encoding.md section 5, 43_memory_ops.md section 2, 92_eei_decisions.md D8, D9] -/
def Obligations.IgnoredFieldsDoNotMatter : Prop :=
  ∀ (a b : Slot) (fa fb : Option Slot), SameUsedFields a b → fa.isSome = fb.isSome →
    (a.opcode = 0x18 → fa.map (·.imm) = fb.map (·.imm)) → decode a fa = decode b fb

/-- `O5`. When a buffer is decoded to a program, slot k of the program has: opcode the byte 8k; dest the low and src the
high nibble of byte 8k+1; offset and imm the little-endian values of bytes 8k+2, 8k+3 and 8k+4 to 8k+7; offset read as
signed lies in -32768 .. 32767 and imm in -2147483648 .. 2147483647. The two example slots of the rule read as it
says. [stated: R51] -/
def Obligations.FieldsOfSlotAreLittleEndian : Prop :=
  (∀ (bytes : List Byte) (prog : List Slot) (k : Nat) (sl : Slot), decodeProgram bytes = .ok prog → prog[k]? = some sl →
    ∃ b0 b1 b2 b3 b4 b5 b6 b7 : Byte,
      (bytes.drop (8 * k)).take 8 = [b0, b1, b2, b3, b4, b5, b6, b7] ∧ sl.opcode = b0 ∧
      sl.dest.toNat = b1.toNat % 16 ∧ sl.src.toNat = b1.toNat / 16 ∧
      sl.offset.toNat = b2.toNat + 256 * b3.toNat ∧
      sl.imm.toNat = b4.toNat + 2 ^ 8 * b5.toNat + 2 ^ 16 * b6.toNat + 2 ^ 24 * b7.toNat ∧
      -32768 ≤ sl.offset.toInt ∧ sl.offset.toInt ≤ 32767 ∧
      -2147483648 ≤ sl.imm.toInt ∧ sl.imm.toInt ≤ 2147483647) ∧
  (∃ sl, decodeProgram [0xb7, 0x01, 0x00, 0x00, 0xfb, 0xff, 0xff, 0xff] = .ok [sl] ∧ sl.opcode = 0xb7 ∧ sl.dest = 1 ∧
    sl.src = 0 ∧ sl.offset = 0 ∧ sl.imm = 0xfffffffb ∧ sl.imm.toInt = -5) ∧
  (∃ sl, decodeProgram [0x55, 0x21, 0xfd, 0xff, 0x00, 0x00, 0x00, 0x00] = .ok [sl] ∧ sl.opcode = 0x55 ∧ sl.dest = 1 ∧
    sl.src = 2 ∧ sl.offset.toInt = -3 ∧ sl.imm = 0)

/-- `O6`. A buffer of length 8n decodes to exactly n slots; re-encoding all of them gives the buffer back, and re-encoding
slot k gives its own eight bytes; reading those eight bytes alone gives slot k again, which is R53's last sentence,
that fetching and decoding the eight bytes at each step is equivalent, an inference the spec marks as its own (from
R50 and R52). Every slot's encoding decodes to that slot (so the map is a bijection), and its bytes are those of the
encoder: opcode, src*16+dest, then offset and imm little-endian. [derived: 30_encoding.md section 1, 30_encoding.md
section 2] -/
def Obligations.ProgramRoundTrip : Prop :=
  (∀ (bytes : List Byte) (n : Nat), bytes.length = 8 * n →
    ∃ prog, decodeProgram bytes = .ok prog ∧ prog.length = n ∧ programBytes prog = bytes ∧
      ∀ k sl, prog[k]? = some sl → sl.bytes = (bytes.drop (8 * k)).take 8 ∧ splitSlots ((bytes.drop (8 * k)).take 8) = [sl]) ∧
  (∀ sl : Slot, decodeProgram sl.bytes = .ok [sl]) ∧
  (∀ sl : Slot, sl.bytes.map BitVec.toNat =
    [sl.opcode.toNat, sl.src.toNat * 16 + sl.dest.toNat, sl.offset.toNat % 256, sl.offset.toNat / 256 % 256,
     sl.imm.toNat % 256, sl.imm.toNat / 2 ^ 8 % 256, sl.imm.toNat / 2 ^ 16 % 256, sl.imm.toNat / 2 ^ 24 % 256])

/-- `O7`. Loading a buffer answers MisalignedLength, and then no machine state exists, if and only if the number of bytes
is not a multiple of 8; otherwise it answers a program, never this error. (With no limit on the length, as the rule
has it; a block with a PROG_MAX is LoadAcceptsUpToProgMax.) [stated: R207] -/
def Obligations.MisalignedLengthIsNoRun : Prop :=
  ∀ (bytes : List Byte) (resolver : Option (List Imm)),
    (load none bytes resolver = .error (.decode .misalignedLength) ↔ bytes.length % 8 ≠ 0) ∧
    (bytes.length % 8 = 0 → ∃ s, load none bytes resolver = .ok s ∧ decodeProgram bytes = .ok s.prog)

/-- `O8`. Eight byte sequences that the spec prints (of every family, LDDW with its two slots) decode to the instructions
the spec says they are. The opcode bytes are decision D1 (log entry 7). [derived: 41_alu64.md section 3,
42_byteswap.md section 2, 43_memory_ops.md sections 2 to 6, 44_branch_call_exit.md sections 2 to 5,
92_eei_decisions.md D1] -/
def Obligations.DecodedWordsOfEachFamily : Prop :=
  decodeBytes [0xb7, 0x01, 0x00, 0x00, 0xfb, 0xff, 0xff, 0xff] = some (.movImm 1 (-5)) ∧
  decodeBytes [0x0f, 0x21, 0x00, 0x00, 0x00, 0x00, 0x00, 0x00] = some (.addReg 1 2) ∧
  decodeBytes [0xd4, 0x01, 0x00, 0x00, 0x10, 0x00, 0x00, 0x00] = some (.le16 1) ∧
  decodeBytes [0x18, 0x01, 0x00, 0x00, 0x88, 0x77, 0x66, 0x55, 0x00, 0x00, 0x00, 0x00, 0x44, 0x33, 0x22, 0x11] =
    some (.lddw 1 0x55667788 0x11223344) ∧
  decodeBytes [0x48, 0x30, 0x00, 0x00, 0x02, 0x00, 0x00, 0x00] = some (.ldindh 0 3 2) ∧
  decodeBytes [0x63, 0x21, 0x00, 0x00, 0x00, 0x00, 0x00, 0x00] = some (.stxw 1 2 0) ∧
  decodeBytes [0x15, 0x01, 0x02, 0x00, 0x05, 0x00, 0x00, 0x00] = some (.jeqImm 1 2 5) ∧
  decodeBytes [0x95, 0x00, 0x00, 0x00, 0x00, 0x00, 0x00, 0x00] = some .exit

/-- `O9`. In every state whose status is not terminal, when the slot at pc (with the slot after it, if any) decodes to an
instruction i, one step is exactly the execution of i in that state with the status set to Running: the step adds
nothing after it. [derived: 40_execution_step.md section 2, 40_execution_step.md section 3] -/
def Obligations.StepRunsTheDecodedInstruction : Prop :=
  ∀ (s : State) (sl : Slot) (i : Instr), s.status.terminal = false → s.prog[s.pc]? = some sl →
    decode sl s.prog[s.pc + 1]? = .ok i → step s = exec i (s.setStatus .running)

/-- `O10`. For a program loaded from a buffer, whatever PROG_MAX accepted it, in every state of its run (the same program,
status not terminal): when the bytes of the buffer from position 8*pc on decode to an instruction i, one step executes
i with the status set to Running. [derived: 10_state.md section 3, 40_execution_step.md section 2, 30_encoding.md
section 2] -/
def Obligations.StepRunsTheLoadedBytes : Prop :=
  ∀ (progMax : Option Nat) (bytes : List Byte) (resolver : Option (List Imm)) (s0 s : State) (i : Instr),
    load progMax bytes resolver = .ok s0 → s.prog = s0.prog → s.status.terminal = false →
    decodeBytes (bytes.drop (8 * s.pc)) = some i → step s = exec i (s.setStatus .running)

/-- `O11`. In every state whose status is not terminal with a slot at pc: if the opcode byte is unknown, or a byteswap
selector is bad, or an LDDW has no second slot, the step takes InvalidOpcode with the opcode byte; else if dest is
above 10, InvalidRegister with dest; else if src is above 10, InvalidRegister with src; each changes the status only.
The order and these reasons are the decisions D6, D8, D9, D13 and D29 (log entries 10, 11). [derived:
40_execution_step.md section 2, 60_exceptions.md section 2, 92_eei_decisions.md D6, D8, D9, D13, D29] -/
def Obligations.ChecksTrapInOrder : Prop :=
  ∀ (s : State) (sl : Slot), s.status.terminal = false → s.prog[s.pc]? = some sl →
    (¬(sl.opcodeKnown ∧ sl.selectorOk ∧ sl.secondSlotOk s.prog[s.pc + 1]?) → StepTakesTrap s (.invalidOpcode sl.opcode)) ∧
    (sl.opcodeKnown ∧ sl.selectorOk ∧ sl.secondSlotOk s.prog[s.pc + 1]? → ¬sl.destOk →
      StepTakesTrap s (.invalidRegister sl.dest)) ∧
    (sl.opcodeKnown ∧ sl.selectorOk ∧ sl.secondSlotOk s.prog[s.pc + 1]? → sl.destOk → ¬sl.srcOk →
      StepTakesTrap s (.invalidRegister sl.src))

/-- `O12`. In a state whose status is Halted or Faulted, any number of steps leaves the whole state as it is: no register,
no memory byte, not pc, not the status; a recorded trap reason or exit code is never overwritten. [stated: R71, R209] -/
def Obligations.TerminalStatesAbsorb : Prop :=
  ∀ (s t : State) (k : Nat), ((∃ c, s.status = .halted c) ∨ ∃ r, s.status = .faulted r) → (StepsTo k s t ↔ t = s)

/-- `O13`. From every state a step gives a next state: never a fault or a refusal of the model. From a state that is not
terminal, the status of the next state is Running, Halted or Faulted, never Ready. (The decisions D13 and D14 stand
behind the traps this counts.) [derived: 40_execution_step.md section 1, 93_implementation_defined.md part 1,
92_eei_decisions.md D13, D14] -/
def Obligations.EveryStepAnswers : Prop :=
  ∀ s : State, ∃ t, step s = .next t ∧
    (s.status.terminal = false → t.status = .running ∨ (∃ c, t.status = .halted c) ∨ ∃ r, t.status = .faulted r)

/-- `O14`. For every state, a step with the status set to Ready and a step with the status set to Running give the same
next state. [derived: 10_state.md section 5] -/
def Obligations.ReadyAndRunningStepAlike : Prop :=
  ∀ s : State, step (s.setStatus .ready) = step (s.setStatus .running)

/-- `O15`. In every state that is not terminal with pc at or beyond the number of slots, a step gives status Halted with
the value of x[0] and changes nothing else; in particular the empty program is accepted whatever PROG_MAX is, and its
first step halts with 0. (A pc beyond N and the empty program: decisions D14, D17, log entries 10 and 13.) [derived:
40_execution_step.md section 2, 92_eei_decisions.md D13, D14, D17] -/
def Obligations.FallsOffTheEnd : Prop :=
  (∀ s : State, s.status.terminal = false → s.prog.length ≤ s.pc →
    ∃ t, step s = .next t ∧ t.status = .halted (s.readReg 0) ∧ OnlyStatus s t) ∧
  (∀ progMax resolver, ∃ s t, load progMax [] resolver = .ok s ∧ step s = .next t ∧ t.status = .halted 0)

/-- `O16`. From a state that is not terminal, a step ends in Halted(c) if and only if c is x[0] and either pc is at or
beyond the number of slots (also after a jump beyond the end) or the slot at pc is an EXIT; registers, memory, pc and
program then keep their values. A halt raises nothing. The halt at a pc beyond N is decision D14 (log entry 10); that
pc stays, at EXIT and at the end, is decision D13 (log entry 11); the whole of x[0] as code is D28 (log entry 13).
[derived: 40_execution_step.md section 2, 60_exceptions.md section 3, 44_branch_call_exit.md section 5,
92_eei_decisions.md D13, D14, D28] -/
def Obligations.HaltsInTwoPlacesOnly : Prop :=
  ∀ (s t : State) (c : Word), s.status.terminal = false → step s = .next t →
    (t.status = .halted c ↔ c = s.readReg 0 ∧ (s.prog.length ≤ s.pc ∨
      ∃ sl, s.prog[s.pc]? = some sl ∧ decode sl s.prog[s.pc + 1]? = .ok .exit)) ∧
    (t.status = .halted c → OnlyStatus s t)

/-- `O17`. Whenever a step from a state that is not terminal ends in Faulted(reason), every register, every byte of
memory, pc and the program are as before the step, and pc is the index of a slot of the program, the one that trapped.
That pc stays is decision D13 (log entry 11). [derived: 60_exceptions.md section 3, 92_eei_decisions.md D13] -/
def Obligations.TrapsChangeOnlyTheStatus : Prop :=
  ∀ (s t : State) (r : Trap), s.status.terminal = false → step s = .next t → t.status = .faulted r →
    OnlyStatus s t ∧ s.pc < s.prog.length

/-- `O18`. Executing any instruction in a Running state ends in Faulted(reason) if and only if the table of trap reasons
says so: MemoryFault for the 20 instructions that access memory (the families R202 lists; it counts 24, log entry 16)
when the access is out of bounds, DivisionByZero for DIV and MOD with a zero operand, UnsupportedCall for an
unresolved CALL, InvalidJumpTarget for a taken jump to a negative target; and nothing else raises anything
(InvalidJumpTarget and address wrap: decisions D14, D11; resolver form: log entry 3). [derived: 60_exceptions.md
section 1, 60_exceptions.md section 2, 92_eei_decisions.md D8, D11, D14] -/
def Obligations.OwnTrapsByTheTable : Prop :=
  ∀ (i : Instr) (s t : State) (r : Trap), s.status = .running → exec i s = .next t →
    (t.status = .faulted r ↔ ownTrap i s r)

/-- `O19`. After any number of steps, the program store is as it was, so the fetch of any slot gives the same as before:
stores never reach instruction fetch. [stated: R44] -/
def Obligations.ProgramNeverChanges : Prop :=
  ∀ (k p : Nat) (s t : State), StepsTo k s t → t.prog = s.prog ∧ fetch t.prog p = fetch s.prog p

/-- `O20`. If a state meets the invariant (memory in canonical form, which is the model's own form; pc at most N + 32767;
in Ready nothing has run; the exit code is x[0]; a recorded trap reason has a payload of the table of R200 and pc
below N), then so does the state after a step. The bound on pc is decision D16, the payloads rest on D8 and D14.
[derived: 10_state.md sections 3 and 5, 60_exceptions.md sections 1 and 3, 92_eei_decisions.md D8, D13, D14, D16] -/
def Obligations.StepKeepsTheInvariant : Prop :=
  ∀ s t : State, s.Inv → step s = .next t → t.Inv

/-- `O21`. State.reset, the initial state of any loaded program, and the state after the reset operation from any state,
meet the invariant of the machine. (State.reset's empty program is the model's choice, log entry 1.) [derived:
10_state.md section 9, 70_reset_and_hazards.md section 1] -/
def Obligations.ResetMeetsTheInvariant : Prop :=
  State.reset.Inv ∧ (∀ (prog : List Slot) (resolver : Option (List Imm)), (State.init prog resolver).Inv) ∧
    ∀ s : State, s.restart.Inv

/-- `O22`. From every state, the reset operation leaves all eleven registers 0, pc 0, all 65536 bytes of memory 0, the
status Ready and the program as it was. State.reset has the same values (its program is the model's choice, log entry
1). [stated: R23] -/
def Obligations.ResetValues : Prop :=
  (∀ s : State, (∀ r : Reg, s.restart.readReg r = 0) ∧ s.restart.pc = 0 ∧ (∀ a, a < 65536 → s.restart.mem.readByte a = 0) ∧
    s.restart.status = .ready ∧ s.restart.prog = s.prog) ∧
  (∀ r : Reg, State.reset.readReg r = 0) ∧ State.reset.pc = 0 ∧ (∀ a, a < 65536 → State.reset.mem.readByte a = 0) ∧
  State.reset.status = .ready

/-- `O23`. When the status is terminal the result has eleven register values, the i-th being x[i] read as signed, 65536
bytes of memory in address order, and the status as outcome; while the status is not terminal there is no result.
[stated: R25] -/
def Obligations.ResultAtTheEnd : Prop :=
  ∀ s : State,
    (s.status.terminal = true → ∃ e, s.result = some e ∧ e.finalRegisters.length = 11 ∧
      (∀ r : Reg, e.finalRegisters[r.val]? = some (s.readReg r).toInt) ∧ e.finalMemory.length = 65536 ∧
      (∀ a, a < 65536 → e.finalMemory[a]? = some (s.mem.readByte a)) ∧ e.outcome = s.status) ∧
    (s.status.terminal = false → s.result = none)

/-- `O24`. From a state that is not terminal whose slot at pc is a JA with target at or beyond the number of slots, two
steps end in Halted(x[0]) with pc at the target, registers and memory unchanged. Decision D14 (log entry 10).
[derived: 44_branch_call_exit.md section 1, 40_execution_step.md section 2, 92_eei_decisions.md D14] -/
def Obligations.JumpBeyondTheEndHalts : Prop :=
  ∀ (s : State) (sl : Slot) (o : Off), s.status.terminal = false → s.prog[s.pc]? = some sl →
    decode sl s.prog[s.pc + 1]? = .ok (.ja o) → (s.prog.length : Int) ≤ (s.pc : Int) + 1 + o.toInt →
    ∃ t, StepsTo 2 s t ∧ t.status = .halted (s.readReg 0) ∧ (t.pc : Int) = (s.pc : Int) + 1 + o.toInt ∧
      SameRegs s t ∧ SameMem s t ∧ SameProgram s t

/-- `O25`. Whatever instruction is executed, in the next state every register other than the one it writes (dest; x[0] for
CALL) reads as before, and the program and the resolver are unchanged. Where an instruction executed in status Running
ends in Faulted, every register reads as before, the one it writes included. That a resolved CALL writes x[0] only is
decision D15 (log entry 3); that a trap writes no register is decision D13 (log entry 11). [derived: 10_state.md
section 2, 60_exceptions.md section 3, 90_conflicts.md C5, 92_eei_decisions.md D13, D15] -/
def Obligations.RegisterIsolation : Prop :=
  ∀ (i : Instr) (s t : State), exec i s = .next t →
    (∀ r : Reg, writtenReg i ≠ some r → t.readReg r = s.readReg r) ∧ SameProgram s t ∧
    (s.status = .running → ∀ reason, t.status = .faulted reason → SameRegs s t)

/-- `O26`. Whatever instruction is executed, every byte of memory in the next state reads as before, except, for an ST* or
STX*, the bytes of its own access: the width of the instruction from the signed effective address on. [derived:
10_state.md section 2, 20_memory.md section 5, 43_memory_ops.md sections 1, 5 and 6] -/
def Obligations.MemoryIsolation : Prop :=
  ∀ (i : Instr) (s t : State), exec i s = .next t →
    (isStore i = false → SameMem s t) ∧
    (∀ addr w, memAccess i s = some (addr, w) → SameMemOutside addr.toInt (Width.bytes w) s t)

/-- `O27`. If a register is not among those an instruction reads or writes, then executing the instruction with another
value in that register gives the same next state with that other value in the register: same status, pc, memory and
other registers. [derived: 10_state.md section 2] -/
def Obligations.UntouchedRegistersDoNotMatter : Prop :=
  ∀ (i : Instr) (s t : State) (r : Reg) (v : Word), r ∉ touchedRegs i → exec i s = .next t →
    exec i (s.writeReg r v) = .next (t.writeReg r v)

/-- `O28`. For every width, a read and a write at signed address A succeed if and only if 0 <= A and A + n <= 65536 in the
integers, equivalently 0 <= A <= 65536 - n; otherwise both answer MemoryFault(A, n). The last admitted addresses are
65535, 65534, 65532 and 65528. An executed memory instruction takes that trap exactly when its access is not admitted.
[stated: R32] -/
def Obligations.AccessAdmittedIff : Prop :=
  (∀ (m : Memory) (addr : Word) (w : Width) (v : Word),
    ((∃ x, memRead m addr w = .ok x) ↔ 0 ≤ addr.toInt ∧ addr.toInt + Width.bytes w ≤ 65536) ∧
    ((∃ m', memWrite m addr w v = .ok m') ↔ 0 ≤ addr.toInt ∧ addr.toInt + Width.bytes w ≤ 65536) ∧
    ((∃ x, memRead m addr w = .ok x) ↔ 0 ≤ addr.toInt ∧ addr.toInt ≤ 65536 - Width.bytes w) ∧
    ((∀ x, memRead m addr w ≠ .ok x) → memRead m addr w = .error (.memoryFault addr.toInt w)) ∧
    ((∀ m', memWrite m addr w v ≠ .ok m') → memWrite m addr w v = .error (.memoryFault addr.toInt w))) ∧
  (∀ (w : Width) (last : Nat), (w, last) ∈ [(Width.byte, 65535), (.half, 65534), (.word, 65532), (.dword, 65528)] →
    ∀ (m : Memory) (addr : Word), (∃ x, memRead m addr w = .ok x) ↔ 0 ≤ addr.toInt ∧ addr.toInt ≤ last) ∧
  (∀ (i : Instr) (s : State) (addr : Word) (w : Width), memAccess i s = some (addr, w) → s.status = .running →
    ((∃ t, exec i s = .next t ∧ t.status = .faulted (.memoryFault addr.toInt w)) ↔ ¬Admitted addr.toInt (Width.bytes w)))

/-- `O29`. MemRead at signed address A of n bytes: if A < 0 or A + n > 65536 it answers MemoryFault(A, n); otherwise it
answers the sum over j below n of mem[A + j] * 2^(8j), an 8n-bit unsigned value. It changes nothing (it answers a
value only). [stated: R34] -/
def Obligations.ReadIsTheSumOfItsBytes : Prop :=
  ∀ (m : Memory) (addr : Word) (w : Width),
    (addr.toInt < 0 ∨ addr.toInt + Width.bytes w > 65536 → memRead m addr w = .error (.memoryFault addr.toInt w)) ∧
    (¬(addr.toInt < 0 ∨ addr.toInt + Width.bytes w > 65536) → ∃ x, memRead m addr w = .ok x ∧
      x.toNat = bytesValue m addr.toInt.toNat (Width.bytes w) ∧ x.toNat < 2 ^ (8 * Width.bytes w))

/-- `O30`. MemWrite at signed address A of n bytes, on a memory in canonical form: if A < 0 or A + n > 65536 it answers
MemoryFault(A, n); otherwise mem[A + j] holds v[8j+7:8j] for each j below n, every other byte reads as before, and the
memory is again in canonical form. [stated: R35] -/
def Obligations.WriteStoresItsBytesOnly : Prop :=
  ∀ (m : Memory) (addr : Word) (w : Width) (v : Word), m.wf = true →
    (addr.toInt < 0 ∨ addr.toInt + Width.bytes w > 65536 → memWrite m addr w v = .error (.memoryFault addr.toInt w)) ∧
    (¬(addr.toInt < 0 ∨ addr.toInt + Width.bytes w > 65536) → ∃ m', memWrite m addr w v = .ok m' ∧ m'.wf = true ∧
      (∀ j : Nat, j < Width.bytes w → (m'.readByte (addr.toInt.toNat + j)).toNat = v.toNat / 2 ^ (8 * j) % 256) ∧
      (∀ a : Nat, (a : Int) < addr.toInt ∨ addr.toInt + Width.bytes w ≤ a → m'.readByte a = m.readByte a))

/-- `O31`. For every one of the 20 instructions that access memory: when its access is not admitted as a whole, executing
it takes MemoryFault with the signed address and the width, and no byte of memory, no register, not pc and not the
program change; also no byte of the access that would have been in bounds, as for a 4-byte store at 65534. That pc and
the other registers stay is decision D13 (log entry 11); the address wrap is D11 (log entry 12). [derived:
20_memory.md section 5, 60_exceptions.md section 3, 92_eei_decisions.md D11, D13] -/
def Obligations.FaultingAccessDoesNothing : Prop :=
  (∀ (i : Instr) (s : State) (addr : Word) (w : Width), memAccess i s = some (addr, w) →
    ¬Admitted addr.toInt (Width.bytes w) → TakesTrap i s (.memoryFault addr.toInt w)) ∧
  (∀ (s : State) (d : Reg) (m : Imm), s.readReg d = 65534 → ∃ t, exec (.stw d 0 m) s = .next t ∧
    t.mem.readByte 65534 = s.mem.readByte 65534 ∧ t.mem.readByte 65535 = s.mem.readByte 65535)

/-- `O32`. After a successful write of one width, a read of any width at any admitted address succeeds and returns, for
each of its bytes, the byte of the written value where the write covered it, else the byte that was there before; the
upper bytes are zero. The rule's example is an instance: after 8 bytes 0x1122334455667788 at 16, two bytes at 18 read
0x5566. [derived: 20_memory.md section 2, 20_memory.md section 8] -/
def Obligations.MixedWidthAccessSeesBytes : Prop :=
  (∀ (m m' : Memory) (a b v : Word) (wa wb : Width), m.wf = true → memWrite m a wa v = .ok m' →
    Admitted b.toInt (Width.bytes wb) → ∃ x, memRead m' b wb = .ok x ∧
      (∀ j : Nat, j < Width.bytes wb → byteOf x j =
        if a.toInt ≤ b.toInt + j ∧ b.toInt + j < a.toInt + Width.bytes wa then byteOf v (b.toInt + j - a.toInt).toNat
        else m.readByte (b.toInt + j).toNat) ∧
      (∀ j : Nat, Width.bytes wb ≤ j → byteOf x j = 0)) ∧
  (∀ m m' : Memory, m.wf = true → memWrite m 16 .dword 0x1122334455667788 = .ok m' →
    memRead m' 18 .half = .ok 0x5566)

/-- `O33`. The address of LDX*, ST* and STX* is, read as signed, the sum of the signed base register and the signed 16-bit
offset, wrapped to 64 bits; that of LDIND* the sum of the base and the signed 32-bit imm, wrapped; that of LDABS* the
signed imm itself. Wrapping is decision D11, the LDABS and LDIND forms decision D10 (log entries 9, 12). [derived:
43_memory_ops.md section 1, 43_memory_ops.md section 3, 92_eei_decisions.md D10, D11] -/
def Obligations.EffectiveAddressesWrap : Prop :=
  ∀ (s : State) (b : Reg) (o : Off) (m : Imm),
    (dispAddr b o s).toInt = ((s.readReg b).toInt + o.toInt).bmod (2 ^ 64) ∧
    (indAddr b m s).toInt = ((s.readReg b).toInt + m.toInt).bmod (2 ^ 64) ∧ (absAddr m).toInt = m.toInt

/-- `O34`. MOV_IMM and MOV_REG complete in every state: x[d] is the operand (imm read as signed; all of x[s]), pc advances
by one, and no other register, no byte of memory, not the status and not the program change. [derived: 41_alu64.md
section 1, 41_alu64.md section 3] -/
def Obligations.MovReplaces : Prop :=
  ∀ (d r : Reg) (m : Imm) (s : State),
    WritesReg (.movImm d m) s d 1 (fun v => v.toInt = m.toInt) ∧
    WritesReg (.movReg d r) s d 1 (fun v => v = s.readReg r)

/-- `O35`. ADD, SUB and MUL, in both forms, complete in every state: x[d] is the exact sum, difference or product of its
old signed value and the signed operand, reduced modulo 2^64, with no trap on overflow; pc advances by one and nothing
else changes. What MUL computes is general knowledge the spec marks as such (log entry 8). [derived: 41_alu64.md
section 1, 41_alu64.md section 2, 41_alu64.md section 3] -/
def Obligations.AddSubMulWrap : Prop :=
  ∀ (d r : Reg) (m : Imm) (s : State),
    WritesReg (.addImm d m) s d 1 (fun v => v.toInt = ((s.readReg d).toInt + m.toInt).bmod (2 ^ 64)) ∧
    WritesReg (.addReg d r) s d 1 (fun v => v.toInt = ((s.readReg d).toInt + (s.readReg r).toInt).bmod (2 ^ 64)) ∧
    WritesReg (.subImm d m) s d 1 (fun v => v.toInt = ((s.readReg d).toInt - m.toInt).bmod (2 ^ 64)) ∧
    WritesReg (.subReg d r) s d 1 (fun v => v.toInt = ((s.readReg d).toInt - (s.readReg r).toInt).bmod (2 ^ 64)) ∧
    WritesReg (.mulImm d m) s d 1 (fun v => v.toInt = ((s.readReg d).toInt * m.toInt).bmod (2 ^ 64)) ∧
    WritesReg (.mulReg d r) s d 1 (fun v => v.toInt = ((s.readReg d).toInt * (s.readReg r).toInt).bmod (2 ^ 64))

/-- `O36`. DIV_IMM with imm not 0 and DIV_REG with x[s] not 0 complete: x[d] is the quotient of the signed values rounded
toward zero, reduced modulo 2^64 (so -2^63 / -1 gives -2^63); pc advances by one and nothing else changes. That
division is signed is decision D4 (log entry 6). [derived: 41_alu64.md section 2, 41_alu64.md section 3,
92_eei_decisions.md D4] -/
def Obligations.DivTruncatesTowardZero : Prop :=
  ∀ (d r : Reg) (m : Imm) (s : State),
    (m ≠ 0 → WritesReg (.divImm d m) s d 1 (fun v => v.toInt = ((s.readReg d).toInt.tdiv m.toInt).bmod (2 ^ 64))) ∧
    (s.readReg r ≠ 0 →
      WritesReg (.divReg d r) s d 1 (fun v => v.toInt = ((s.readReg d).toInt.tdiv (s.readReg r).toInt).bmod (2 ^ 64)))

/-- `O37`. MOD_IMM with imm not 0 and MOD_REG with x[s] not 0 complete: x[d] is, read as signed, the dividend minus the
truncated quotient times the divisor, zero or with the sign of the dividend and smaller in magnitude than the divisor;
pc advances by one and nothing else changes. Signedness is decision D4 (log entry 6). [derived: 41_alu64.md section 2,
41_alu64.md section 3, 92_eei_decisions.md D4] -/
def Obligations.ModTakesTheDividendsSign : Prop :=
  ∀ (d r : Reg) (m : Imm) (s : State),
    (m ≠ 0 → WritesReg (.modImm d m) s d 1 (fun v => v.toInt = (s.readReg d).toInt.tmod m.toInt ∧
      v.toInt.natAbs < m.toInt.natAbs)) ∧
    (s.readReg r ≠ 0 → WritesReg (.modReg d r) s d 1 (fun v => v.toInt = (s.readReg d).toInt.tmod (s.readReg r).toInt ∧
      v.toInt.natAbs < (s.readReg r).toInt.natAbs))

/-- `O38`. DIV_IMM and MOD_IMM with imm = 0, and DIV_REG and MOD_REG with x[s] = 0, take DivisionByZero whatever the
dividend, changing no register, no memory and not pc; with any other operand (also -2^63 by -1) they do not; and no
other instruction ever raises it. That memory, pc and the other registers stay is decision D13 (log entry 11).
[derived: 60_exceptions.md section 1, 60_exceptions.md section 3, 92_eei_decisions.md D13] -/
def Obligations.DivisionByZeroTraps : Prop :=
  (∀ (d r : Reg) (s : State),
    TakesTrap (.divImm d 0) s .divisionByZero ∧ TakesTrap (.modImm d 0) s .divisionByZero ∧
    (s.readReg r = 0 → TakesTrap (.divReg d r) s .divisionByZero ∧ TakesTrap (.modReg d r) s .divisionByZero)) ∧
  (∀ (i : Instr) (s t : State), s.status = .running → exec i s = .next t → t.status = .faulted .divisionByZero →
    (∃ d, i = .divImm d 0 ∨ i = .modImm d 0) ∨
    (∃ d r, (i = .divReg d r ∨ i = .modReg d r) ∧ s.readReg r = 0))

/-- `O39`. OR, AND and XOR, in both forms, complete in every state: bit k of x[d] is the or, and or exclusive or of its
old bit k and bit k of the operand, where bit k of an immediate above 31 is its bit 31; pc advances by one and nothing
else changes. That the mnemonics mean these operations is general knowledge the spec marks as such (log entry 8).
[derived: 41_alu64.md section 1, 41_alu64.md section 3] -/
def Obligations.BitwiseInstructions : Prop :=
  ∀ (d r : Reg) (m : Imm) (s : State),
    WritesReg (.orImm d m) s d 1 (fun v => ∀ k, k < 64 →
      v.getLsbD k = ((s.readReg d).getLsbD k || m.getLsbD (min k 31))) ∧
    WritesReg (.orReg d r) s d 1 (fun v => ∀ k, k < 64 →
      v.getLsbD k = ((s.readReg d).getLsbD k || (s.readReg r).getLsbD k)) ∧
    WritesReg (.andImm d m) s d 1 (fun v => ∀ k, k < 64 →
      v.getLsbD k = ((s.readReg d).getLsbD k && m.getLsbD (min k 31))) ∧
    WritesReg (.andReg d r) s d 1 (fun v => ∀ k, k < 64 →
      v.getLsbD k = ((s.readReg d).getLsbD k && (s.readReg r).getLsbD k)) ∧
    WritesReg (.xorImm d m) s d 1 (fun v => ∀ k, k < 64 →
      v.getLsbD k = ((s.readReg d).getLsbD k ^^ m.getLsbD (min k 31))) ∧
    WritesReg (.xorReg d r) s d 1 (fun v => ∀ k, k < 64 →
      v.getLsbD k = ((s.readReg d).getLsbD k ^^ (s.readReg r).getLsbD k))

/-- `O40`. NEG_IMM and NEG_REG complete in every state: x[d] is the negation of its old signed value reduced modulo 2^64
(so -2^63 stays), whatever the operand; pc advances by one and nothing else changes. That both forms negate x[d] is
decision D3 (log entry 13). [derived: 41_alu64.md section 3, 90_conflicts.md C4, 92_eei_decisions.md D3] -/
def Obligations.NegNegatesTheDestination : Prop :=
  ∀ (d : Reg) (s : State),
    WritesReg (.negImm d) s d 1 (fun v => v.toInt = (-(s.readReg d).toInt).bmod (2 ^ 64)) ∧
    WritesReg (.negReg d) s d 1 (fun v => v.toInt = (-(s.readReg d).toInt).bmod (2 ^ 64))

/-- `O41`. With n the operand modulo 64 (of the signed imm, or of x[s]): LSH gives x[d] * 2^n modulo 2^64; RSH gives the
unsigned x[d] divided by 2^n; ARSH gives the floor of the signed x[d] divided by 2^n. All six complete in every state,
pc advances by one and nothing else changes. Amount and directions: decision D5 (log entry 8). [derived: 41_alu64.md
section 2, 41_alu64.md section 3, 92_eei_decisions.md D5] -/
def Obligations.ShiftsUseTheAmountModulo64 : Prop :=
  ∀ (d r : Reg) (m : Imm) (s : State),
    WritesReg (.lshImm d m) s d 1 (fun v => v.toNat = (s.readReg d).toNat * 2 ^ (m.toInt % 64).toNat % 2 ^ 64) ∧
    WritesReg (.lshReg d r) s d 1 (fun v => v.toNat = (s.readReg d).toNat * 2 ^ ((s.readReg r).toNat % 64) % 2 ^ 64) ∧
    WritesReg (.rshImm d m) s d 1 (fun v => v.toNat = (s.readReg d).toNat / 2 ^ (m.toInt % 64).toNat) ∧
    WritesReg (.rshReg d r) s d 1 (fun v => v.toNat = (s.readReg d).toNat / 2 ^ ((s.readReg r).toNat % 64)) ∧
    WritesReg (.arshImm d m) s d 1 (fun v => v.toInt = (s.readReg d).toInt / 2 ^ (m.toInt % 64).toNat) ∧
    WritesReg (.arshReg d r) s d 1 (fun v => v.toInt = (s.readReg d).toInt / 2 ^ ((s.readReg r).toNat % 64))

/-- `O42`. A slot with opcode byte 0xd4 and imm 16, 32 or 64 (dest and src naming registers, any offset) decodes to LE16,
LE32 or LE64; each completes in every state: x[d] keeps its low 16, 32 or 64 bits and the bits above become 0 (so a
value below the bound is unchanged and applying it twice is as once); pc advances by one and nothing else changes.
That src and offset are ignored, but src must name a register, is decision D8 (log entries 10 and 14). [derived:
42_byteswap.md sections 1 and 2, 30_encoding.md section 5, 92_eei_decisions.md D8] -/
def Obligations.LittleEndianSwapsTruncate : Prop :=
  ∀ (d r : Reg) (o : Off) (following : Option Slot) (s : State),
    decode (slotOf 0xd4 (fieldOfReg d) (fieldOfReg r) o 16) following = .ok (.le16 d) ∧
    decode (slotOf 0xd4 (fieldOfReg d) (fieldOfReg r) o 32) following = .ok (.le32 d) ∧
    decode (slotOf 0xd4 (fieldOfReg d) (fieldOfReg r) o 64) following = .ok (.le64 d) ∧
    WritesReg (.le16 d) s d 1 (fun v => v.toNat = (s.readReg d).toNat % 2 ^ 16) ∧
    WritesReg (.le32 d) s d 1 (fun v => v.toNat = (s.readReg d).toNat % 2 ^ 32) ∧
    WritesReg (.le64 d) s d 1 (fun v => v = s.readReg d)

/-- `O43`. BE16, BE32 and BE64 complete in every state: byte j of the new x[d] is byte w/8 - 1 - j of the old one for j
below w/8, and the bytes above are 0; pc advances by one and nothing else changes. The opcode byte 0xdc is decision D1
(log entry 7). [derived: 42_byteswap.md sections 1 and 2, 92_eei_decisions.md D1] -/
def Obligations.BigEndianSwapsReverseBytes : Prop :=
  ∀ (d : Reg) (s : State),
    WritesReg (.be16 d) s d 1 (fun v => ∀ j, j < 8 → byteOf v j = if j < 2 then byteOf (s.readReg d) (1 - j) else 0) ∧
    WritesReg (.be32 d) s d 1 (fun v => ∀ j, j < 8 → byteOf v j = if j < 4 then byteOf (s.readReg d) (3 - j) else 0) ∧
    WritesReg (.be64 d) s d 1 (fun v => ∀ j, j < 8 → byteOf v j = byteOf (s.readReg d) (7 - j))

/-- `O44`. LDDW completes in every state: x[d] is, unsigned, the imm of its own slot plus 2^32 times the imm of the next,
neither sign-extended; pc advances by two slots, no memory is accessed and nothing else changes. Which field is the
high half is decision D9 (log entry 8). [derived: 43_memory_ops.md section 2, 92_eei_decisions.md D9] -/
def Obligations.LddwJoinsTwoImmediates : Prop :=
  ∀ (d : Reg) (lo hi : Imm) (s : State),
    WritesReg (.lddw d lo hi) s d 2 (fun v => v.toNat = lo.toNat + 2 ^ 32 * hi.toNat)

/-- `O45`. For each width n, LDABS* with an admitted address completes: the address is the signed imm, x[d] becomes the
little-endian unsigned value of the n bytes there, zero-extended; pc advances by one and nothing else changes. That it
reads the linear memory into x[d] is decision D10 (log entry 9). [derived: 43_memory_ops.md section 3, 90_conflicts.md
C9, 92_eei_decisions.md D10] -/
def Obligations.LoadAbsoluteReadsMemory : Prop :=
  ∀ (d : Reg) (m : Imm) (s : State),
    (Admitted (absAddr m).toInt 1 → WritesReg (.ldabsb d m) s d 1 (fun v =>
      v.toNat = bytesValue s.mem (absAddr m).toInt.toNat 1)) ∧
    (Admitted (absAddr m).toInt 2 → WritesReg (.ldabsh d m) s d 1 (fun v =>
      v.toNat = bytesValue s.mem (absAddr m).toInt.toNat 2)) ∧
    (Admitted (absAddr m).toInt 4 → WritesReg (.ldabsw d m) s d 1 (fun v =>
      v.toNat = bytesValue s.mem (absAddr m).toInt.toNat 4)) ∧
    (Admitted (absAddr m).toInt 8 → WritesReg (.ldabsdw d m) s d 1 (fun v =>
      v.toNat = bytesValue s.mem (absAddr m).toInt.toNat 8))

/-- `O46`. For each width n, LDIND* with an admitted address completes: the address is x[s] plus the signed imm, modulo
2^64, formed before x[d] is written; x[d] becomes the little-endian unsigned value of the n bytes there, zero-
extended; pc advances by one and nothing else changes. Decision D10 (log entry 9). [derived: 43_memory_ops.md section
3, 90_conflicts.md C9, 92_eei_decisions.md D10, D11] -/
def Obligations.LoadIndirectReadsMemory : Prop :=
  ∀ (d r : Reg) (m : Imm) (s : State),
    (Admitted (indAddr r m s).toInt 1 → WritesReg (.ldindb d r m) s d 1 (fun v =>
      v.toNat = bytesValue s.mem (indAddr r m s).toInt.toNat 1)) ∧
    (Admitted (indAddr r m s).toInt 2 → WritesReg (.ldindh d r m) s d 1 (fun v =>
      v.toNat = bytesValue s.mem (indAddr r m s).toInt.toNat 2)) ∧
    (Admitted (indAddr r m s).toInt 4 → WritesReg (.ldindw d r m) s d 1 (fun v =>
      v.toNat = bytesValue s.mem (indAddr r m s).toInt.toNat 4)) ∧
    (Admitted (indAddr r m s).toInt 8 → WritesReg (.ldinddw d r m) s d 1 (fun v =>
      v.toNat = bytesValue s.mem (indAddr r m s).toInt.toNat 8))

/-- `O47`. For each width n, LDX* with an admitted address completes: the address is x[s] plus the signed offset, modulo
2^64 (decision D11), formed before x[d] is written; x[d] becomes the little-endian unsigned value of the n bytes
there, zero-extended, whatever the alignment; pc advances by one and nothing else changes. [derived: 43_memory_ops.md
section 4, 20_memory.md sections 2, 4 and 6, 92_eei_decisions.md D11, D21] -/
def Obligations.LoadIndexedReadsMemory : Prop :=
  ∀ (d r : Reg) (o : Off) (s : State),
    (Admitted (dispAddr r o s).toInt 1 → WritesReg (.ldxb d r o) s d 1 (fun v =>
      v.toNat = bytesValue s.mem (dispAddr r o s).toInt.toNat 1)) ∧
    (Admitted (dispAddr r o s).toInt 2 → WritesReg (.ldxh d r o) s d 1 (fun v =>
      v.toNat = bytesValue s.mem (dispAddr r o s).toInt.toNat 2)) ∧
    (Admitted (dispAddr r o s).toInt 4 → WritesReg (.ldxw d r o) s d 1 (fun v =>
      v.toNat = bytesValue s.mem (dispAddr r o s).toInt.toNat 4)) ∧
    (Admitted (dispAddr r o s).toInt 8 → WritesReg (.ldxdw d r o) s d 1 (fun v =>
      v.toNat = bytesValue s.mem (dispAddr r o s).toInt.toNat 8))

/-- `O48`. For each width n, on a memory in canonical form, ST* with an admitted address completes: byte j of the n bytes
at x[d] plus the signed offset holds byte j of the sign-extended imm; every other byte, every register, the status and
the program are unchanged and pc advances by one. The stored value is decision D12 (log entry 12). [derived:
43_memory_ops.md section 5, 20_memory.md section 5, 92_eei_decisions.md D11, D12] -/
def Obligations.StoreImmediateWritesMemory : Prop :=
  ∀ (d : Reg) (o : Off) (m : Imm) (s : State), s.mem.wf = true →
    (Admitted (dispAddr d o s).toInt 1 → StoresBytes (.stb d o m) s (dispAddr d o s).toInt 1 (fun j =>
      m.toInt / 2 ^ (8 * j) % 256)) ∧
    (Admitted (dispAddr d o s).toInt 2 → StoresBytes (.sth d o m) s (dispAddr d o s).toInt 2 (fun j =>
      m.toInt / 2 ^ (8 * j) % 256)) ∧
    (Admitted (dispAddr d o s).toInt 4 → StoresBytes (.stw d o m) s (dispAddr d o s).toInt 4 (fun j =>
      m.toInt / 2 ^ (8 * j) % 256)) ∧
    (Admitted (dispAddr d o s).toInt 8 → StoresBytes (.stdw d o m) s (dispAddr d o s).toInt 8 (fun j =>
      m.toInt / 2 ^ (8 * j) % 256))

/-- `O49`. For each width n, on a memory in canonical form, STX* with an admitted address completes: byte j of the n bytes
at x[d] plus the signed offset holds byte j of x[s]; every other byte, every register, the status and the program are
unchanged and pc advances by one. Dropping the upper bits is decision D12 (log entry 12). [derived: 43_memory_ops.md
section 6, 20_memory.md section 5, 92_eei_decisions.md D11, D12] -/
def Obligations.StoreRegisterWritesMemory : Prop :=
  ∀ (d r : Reg) (o : Off) (s : State), s.mem.wf = true →
    (Admitted (dispAddr d o s).toInt 1 → StoresBytes (.stxb d r o) s (dispAddr d o s).toInt 1 (fun j =>
      (s.readReg r).toNat / 2 ^ (8 * j) % 256)) ∧
    (Admitted (dispAddr d o s).toInt 2 → StoresBytes (.stxh d r o) s (dispAddr d o s).toInt 2 (fun j =>
      (s.readReg r).toNat / 2 ^ (8 * j) % 256)) ∧
    (Admitted (dispAddr d o s).toInt 4 → StoresBytes (.stxw d r o) s (dispAddr d o s).toInt 4 (fun j =>
      (s.readReg r).toNat / 2 ^ (8 * j) % 256)) ∧
    (Admitted (dispAddr d o s).toInt 8 → StoresBytes (.stxdw d r o) s (dispAddr d o s).toInt 8 (fun j =>
      (s.readReg r).toNat / 2 ^ (8 * j) % 256))

/-- `O50`. JA with target t = pc + 1 + signed(offset) at least 0 completes: pc becomes t and nothing else changes. With t
below 0 it takes InvalidJumpTarget(t), changing the status only (decision D14, log entry 10). [derived:
44_branch_call_exit.md section 1, 44_branch_call_exit.md section 2, 92_eei_decisions.md D14] -/
def Obligations.JumpAlways : Prop :=
  ∀ (o : Off) (s : State),
    (0 ≤ (s.pc : Int) + 1 + o.toInt → GoesTo (.ja o) s ((s.pc : Int) + 1 + o.toInt).toNat) ∧
    ((s.pc : Int) + 1 + o.toInt < 0 → TakesTrap (.ja o) s (.invalidJumpTarget ((s.pc : Int) + 1 + o.toInt)))

/-- `O51`. Each of the 14 instructions JEQ, JNE, JGT, JGE, JLT, JLE (unsigned, the imm sign-extended first) and JSET (some
bit set in both), in both forms, completes: with its condition true and the target pc + 1 + offset at least 0, pc
becomes the target; with it false, pc advances by one; with it true and the target below 0 it takes InvalidJumpTarget.
Nothing else changes. Relations: decision D27 (log entry 8); trap: D14 (log entry 10). [derived:
44_branch_call_exit.md section 1, 44_branch_call_exit.md section 3, 92_eei_decisions.md D14, D27] -/
def Obligations.UnsignedJumps : Prop :=
  ∀ (d r : Reg) (o : Off) (m : Imm) (s : State),
    JumpsOn (.jeqImm d o m) s o ((s.readReg d).toInt = m.toInt) ∧ JumpsOn (.jeqReg d r o) s o (s.readReg d = s.readReg r) ∧
    JumpsOn (.jneImm d o m) s o ((s.readReg d).toInt ≠ m.toInt) ∧ JumpsOn (.jneReg d r o) s o (s.readReg d ≠ s.readReg r) ∧
    JumpsOn (.jgtImm d o m) s o (((s.readReg d).toNat : Int) > m.toInt % 2 ^ 64) ∧
    JumpsOn (.jgtReg d r o) s o ((s.readReg d).toNat > (s.readReg r).toNat) ∧
    JumpsOn (.jgeImm d o m) s o (((s.readReg d).toNat : Int) ≥ m.toInt % 2 ^ 64) ∧
    JumpsOn (.jgeReg d r o) s o ((s.readReg d).toNat ≥ (s.readReg r).toNat) ∧
    JumpsOn (.jltImm d o m) s o (((s.readReg d).toNat : Int) < m.toInt % 2 ^ 64) ∧
    JumpsOn (.jltReg d r o) s o ((s.readReg d).toNat < (s.readReg r).toNat) ∧
    JumpsOn (.jleImm d o m) s o (((s.readReg d).toNat : Int) ≤ m.toInt % 2 ^ 64) ∧
    JumpsOn (.jleReg d r o) s o ((s.readReg d).toNat ≤ (s.readReg r).toNat) ∧
    JumpsOn (.jsetImm d o m) s o (∃ k, k < 64 ∧ (s.readReg d).getLsbD k = true ∧ m.getLsbD (min k 31) = true) ∧
    JumpsOn (.jsetReg d r o) s o (∃ k, k < 64 ∧ (s.readReg d).getLsbD k = true ∧ (s.readReg r).getLsbD k = true)

/-- `O52`. Each of the 8 instructions JSGT, JSGE, JSLT and JSLE, in both forms, completes: with its relation true of the
signed values and the target pc + 1 + offset at least 0, pc becomes the target; with it false, pc advances by one;
with it true and the target below 0 it takes InvalidJumpTarget. Nothing else changes. Relations: decision D27 (log
entry 8); trap: D14 (log entry 10). [derived: 44_branch_call_exit.md section 1, 44_branch_call_exit.md section 3,
92_eei_decisions.md D14, D27] -/
def Obligations.SignedJumps : Prop :=
  ∀ (d r : Reg) (o : Off) (m : Imm) (s : State),
    JumpsOn (.jsgtImm d o m) s o ((s.readReg d).toInt > m.toInt) ∧
    JumpsOn (.jsgtReg d r o) s o ((s.readReg d).toInt > (s.readReg r).toInt) ∧
    JumpsOn (.jsgeImm d o m) s o ((s.readReg d).toInt ≥ m.toInt) ∧
    JumpsOn (.jsgeReg d r o) s o ((s.readReg d).toInt ≥ (s.readReg r).toInt) ∧
    JumpsOn (.jsltImm d o m) s o ((s.readReg d).toInt < m.toInt) ∧
    JumpsOn (.jsltReg d r o) s o ((s.readReg d).toInt < (s.readReg r).toInt) ∧
    JumpsOn (.jsleImm d o m) s o ((s.readReg d).toInt ≤ m.toInt) ∧
    JumpsOn (.jsleReg d r o) s o ((s.readReg d).toInt ≤ (s.readReg r).toInt)

/-- `O53`. A CALL whose id the host's resolver answers completes: x[0] becomes the answer for the id and the eleven
register values, pc advances by one and nothing else changes. With no resolver, or none for the id, it takes
UnsupportedCall with the signed id. It holds for every resolver: the answers are an unconstrained constant (decision
D15, log entry 3). [derived: 44_branch_call_exit.md section 4, 60_exceptions.md section 1, 92_eei_decisions.md D15] -/
def Obligations.CallAsksTheResolver : Prop :=
  ∀ (m : Imm) (s : State),
    (∀ ids, s.resolver = some ids → m ∈ ids →
      WritesReg (.call m) s 0 1 (fun v => v = Config.callResult m s.regs)) ∧
    (unresolved m s → TakesTrap (.call m) s (.unsupportedCall m.toInt))

/-- `O54`. EXIT completes in every state: the status becomes Halted with the 64 bits of x[0]; registers, memory, pc and
program are unchanged, and from a state that meets the invariant the next state does too. Exit code and pc: decisions
D28 and D13 (log entries 11, 13). [derived: 44_branch_call_exit.md section 5, 92_eei_decisions.md D13, D28] -/
def Obligations.ExitHalts : Prop :=
  ∀ s : State, ∃ t, exec .exit s = .next t ∧ t.status = .halted (s.readReg 0) ∧ OnlyStatus s t ∧ (s.Inv → t.Inv)

/-- `O55`. For every value of the parameter PROG_MAX, and none for a block without a limit, a buffer of 8n bytes with n at
most PROG_MAX loads: the initial state of the run has the n decoded slots as program. With n above PROG_MAX the load
refuses the program, naming n, and there is no state. A buffer whose length is not a multiple of 8 answers
MisalignedLength whatever PROG_MAX is. PROG_MAX is open (D16); that a longer program is refused at load is allowed by
U14 of 93_implementation_defined.md and the model's choice (log entry 5). [derived: 00_scope.md section 3,
30_encoding.md section 2, 70_reset_and_hazards.md section 1, 92_eei_decisions.md D16, 93_implementation_defined.md
U14] -/
def Obligations.LoadAcceptsUpToProgMax : Prop :=
  ∀ (progMax : Option Nat) (bytes : List Byte) (resolver : Option (List Imm)) (n : Nat),
    (bytes.length = 8 * n → (∀ m, progMax = some m → n ≤ m) → ∃ prog, decodeProgram bytes = .ok prog ∧ prog.length = n ∧
      load progMax bytes resolver = .ok (State.init prog resolver)) ∧
    (bytes.length = 8 * n → (∃ m, progMax = some m ∧ m < n) →
      load progMax bytes resolver = .error (.programTooLong n)) ∧
    (bytes.length % 8 ≠ 0 → load progMax bytes resolver = .error (.decode .misalignedLength))

/-- `O56`. When a block with PROG_MAX = m accepts a buffer, then after any number of steps from the initial state pc is
below m + 32768: a pc register wide enough for PROG_MAX + 32768 never wraps. Decision D16; D13 and D14 for pc after a
trap and a jump beyond the end (log entries 5, 10, 11). [derived: 00_scope.md section 3, 10_state.md section 3,
92_eei_decisions.md D13, D14, D16] -/
def Obligations.PcOfARunFitsProgMax : Prop :=
  ∀ (m : Nat) (bytes : List Byte) (resolver : Option (List Imm)) (k : Nat) (s t : State),
    load (some m) bytes resolver = .ok s → StepsTo k s t → t.pc < m + 32768
end

