-- ==== Sys2Proof/Laws/Decode.lean ====
section
/-!
SUPPORT. The decoder's small lemmas: register fields, bytes of a slot, and all that `decode` can do.
-/

namespace Sys2Proof

/-- A register's field names that register. -/
@[simp] theorem regOfField_fieldOfReg (r : Reg) : regOfField (fieldOfReg r) = some r := by
  revert r
  decide

/-- A field that names a register is that register's field. -/
theorem fieldOfReg_of_regOfField {f : RegField} {r : Reg} (h : regOfField f = some r) : fieldOfReg r = f := by
  revert h r f
  decide

/-- A field names a register exactly when it is at most 10 (R13). -/
theorem regOfField_isSome (f : RegField) : (regOfField f).isSome = true ↔ f.toNat ≤ 10 := by
  revert f
  decide

/-- A register's field is at most 10. -/
@[simp] theorem fieldOfReg_le (r : Reg) : (fieldOfReg r).toNat ≤ 10 := by
  revert r
  decide

/-- All that `decode` can do (R74, R75). -/
theorem decode_cases (sl : Slot) (following : Option Slot) :
    (∃ e, recognise sl following = .error e ∧ decode sl following = .error e) ∨
    (∃ g, recognise sl following = .ok g ∧ regOfField sl.dest = none ∧ decode sl following = .error (.badDest sl.dest)) ∨
    (∃ g d, recognise sl following = .ok g ∧ regOfField sl.dest = some d ∧ regOfField sl.src = none ∧
      decode sl following = .error (.badSrc sl.src)) ∨
    (∃ g d r, recognise sl following = .ok g ∧ regOfField sl.dest = some d ∧ regOfField sl.src = some r ∧
      decode sl following = .ok (g d r)) := by
  cases hr : recognise sl following with
  | error e => exact .inl ⟨e, rfl, by simp [decode, hr]⟩
  | ok g =>
    cases hd : regOfField sl.dest with
    | none => exact .inr (.inl ⟨g, rfl, rfl, by simp [decode, hr, hd]⟩)
    | some d =>
      cases hs : regOfField sl.src with
      | none => exact .inr (.inr (.inl ⟨g, d, rfl, rfl, rfl, by simp [decode, hr, hd, hs]⟩))
      | some r => exact .inr (.inr (.inr ⟨g, d, r, rfl, rfl, rfl, by simp [decode, hr, hd, hs]⟩))

/-- The value of two joined bit vectors. -/
theorem toNat_append_eq {n m : Nat} (a : BitVec n) (b : BitVec m) : (a ++ b).toNat = a.toNat * 2 ^ m + b.toNat := by
  rw [BitVec.toNat_append, ← Nat.shiftLeft_add_eq_or_of_lt b.isLt, Nat.shiftLeft_eq]

/-- The value of one byte of a value. -/
theorem toNat_byteOf {n : Nat} (v : BitVec n) (j : Nat) : (byteOf v j).toNat = v.toNat / 2 ^ (8 * j) % 256 := by
  simp [byteOf, BitVec.extractLsb'_toNat, Nat.shiftRight_eq_div_pow]

/-- The low nibble of byte 1 is `dest` (R51). -/
theorem low_nibble_append (r d : BitVec 4) : (r ++ d).extractLsb' 0 4 = d := by
  apply BitVec.eq_of_toNat_eq
  simp only [BitVec.extractLsb'_toNat, toNat_append_eq, Nat.shiftRight_eq_div_pow]
  omega

/-- The high nibble of byte 1 is `src` (R51). -/
theorem high_nibble_append (r d : BitVec 4) : (r ++ d).extractLsb' 4 4 = r := by
  apply BitVec.eq_of_toNat_eq
  simp only [BitVec.extractLsb'_toNat, toNat_append_eq, Nat.shiftRight_eq_div_pow]
  omega

/-- The two bytes of an offset, joined. -/
theorem off_bytes_append (o : Off) : byteOf o 1 ++ byteOf o 0 = o := by
  apply BitVec.eq_of_toNat_eq
  simp only [toNat_append_eq, toNat_byteOf]
  omega

/-- The four bytes of an immediate, joined. -/
theorem imm_bytes_append (m : Imm) : byteOf m 3 ++ byteOf m 2 ++ byteOf m 1 ++ byteOf m 0 = m := by
  apply BitVec.eq_of_toNat_eq
  simp only [toNat_append_eq, toNat_byteOf]
  omega

/-- Splitting a buffer that starts with the bytes of a slot. -/
@[simp] theorem splitSlots_bytes_append (sl : Slot) (rest : List Byte) :
    splitSlots (sl.bytes ++ rest) = sl :: splitSlots rest := by
  obtain ⟨op, d, r, o, m⟩ := sl
  simp only [Slot.bytes, List.cons_append, List.nil_append, splitSlots, slotOfBytes]
  rw [off_bytes_append, imm_bytes_append, low_nibble_append, high_nibble_append]

end Sys2Proof
end

