-- ==== Sys2Proof/Laws/Operands.lean ====
section
/-!
SUPPORT. One lemma per operand form and arithmetic function: its value as a number, or bit by bit.
-/

namespace Sys2Proof.Machine

/-! ### Operands -/

/-- The immediate operand is the signed `imm` (R54 (a)). -/
@[simp] theorem imm64_toInt (m : Imm) : (imm64 m).toInt = m.toInt :=
  BitVec.toInt_signExtend_of_le (by decide)

/-- The sign-extended offset is the signed `offset` (R54 (c)). -/
@[simp] theorem off64_toInt (o : Off) : (off64 o).toInt = o.toInt :=
  BitVec.toInt_signExtend_of_le (by decide)

/-- The unsigned value of the immediate operand. -/
theorem imm64_toNat (m : Imm) : ((imm64 m).toNat : Int) = m.toInt % 2 ^ 64 := by
  have h := (imm64 m).isLt
  rw [← imm64_toInt, BitVec.toInt_eq_toNat_cond]
  split <;> omega

/-- Bit `k` of the immediate operand: bit 31 of `imm` from bit 31 on. -/
theorem imm64_getLsbD (m : Imm) {k : Nat} (hk : k < 64) : (imm64 m).getLsbD k = m.getLsbD (min k 31) := by
  rw [imm64, BitVec.getLsbD_signExtend, BitVec.msb_eq_getLsbD_last]
  by_cases h : k < 32
  · simp [hk, h, show min k 31 = k by omega]
  · simp [hk, h, show min k 31 = 31 by omega]

/-- The immediate operand is zero exactly when `imm` is (R111). -/
@[simp] theorem imm64_eq_zero (m : Imm) : imm64 m = 0#64 ↔ m = 0#32 := by
  rw [← BitVec.toInt_inj, imm64_toInt, ← BitVec.toInt_inj]
  simp

/-- The value of the immediate of `LDDW` (R141). -/
theorem wideImm_toNat (lo hi : Imm) : (wideImm lo hi).toNat = lo.toNat + 2 ^ 32 * hi.toNat := by
  have hl := lo.isLt
  have hh := hi.isLt
  have e : (lo.setWidth 64 ||| hi.setWidth 64 <<< 32).toNat = (hi.toNat <<< 32) ||| lo.toNat := by
    rw [BitVec.toNat_or, BitVec.toNat_shiftLeft, BitVec.toNat_setWidth, BitVec.toNat_setWidth, Nat.lor_comm,
      Nat.mod_eq_of_lt (by omega : hi.toNat < 2 ^ 64), Nat.mod_eq_of_lt (by omega : lo.toNat < 2 ^ 64),
      Nat.mod_eq_of_lt (by rw [Nat.shiftLeft_eq]; omega)]
  rw [wideImm, e, ← Nat.shiftLeft_add_eq_or_of_lt hl, Nat.shiftLeft_eq]
  omega

/-! ### Effective addresses -/

/-- The address of `LDX*`, `ST*` and `STX*` as a signed number (R140). -/
theorem dispAddr_toInt (b : Reg) (o : Off) (s : State) :
    (dispAddr b o s).toInt = ((s.readReg b).toInt + o.toInt).bmod (2 ^ 64) := by
  rw [dispAddr, BitVec.toInt_add, off64_toInt]

/-- The address of `LDIND*` as a signed number (R142). -/
theorem indAddr_toInt (b : Reg) (m : Imm) (s : State) :
    (indAddr b m s).toInt = ((s.readReg b).toInt + m.toInt).bmod (2 ^ 64) := by
  rw [indAddr, BitVec.toInt_add, imm64_toInt]

/-! ### Arithmetic -/

/-- A signed 64-bit value is its own residue. -/
theorem toInt_bmod_word (a : Word) : a.toInt.bmod (2 ^ 64) = a.toInt := BitVec.toInt_bmod_cancel a

/-- The signed value of `sdiv64` (R101). -/
theorem sdiv64_toInt (a b : Word) : (sdiv64 a b).toInt = (a.toInt.tdiv b.toInt).bmod (2 ^ 64) := by
  rw [sdiv64, BitVec.toInt_ofInt]

/-- A remainder is a signed 64-bit value. -/
theorem tmod_bmod_word (a b : Word) : (a.toInt.tmod b.toInt).bmod (2 ^ 64) = a.toInt.tmod b.toInt := by
  have h1 := a.le_two_mul_toInt
  have h2 := a.two_mul_toInt_lt
  have h : (a.toInt.tmod b.toInt).natAbs ≤ a.toInt.natAbs := by
    rw [Int.natAbs_tmod]
    exact Nat.mod_le _ _
  rcases Int.lt_or_le a.toInt 0 with hn | hn
  · have := Int.tmod_nonneg (a := -a.toInt) b.toInt (by omega)
    rw [Int.neg_tmod] at this
    rw [Int.bmod_eq_of_le] <;> omega
  · have := Int.tmod_nonneg b.toInt hn
    rw [Int.bmod_eq_of_le] <;> omega

/-- The signed value of `srem64` (R101). -/
theorem srem64_toInt (a b : Word) : (srem64 a b).toInt = a.toInt.tmod b.toInt := by
  rw [srem64, BitVec.toInt_ofInt, ← tmod_bmod_word, Int.tmod_def, Int.mul_comm]

/-- The shift amount of a register operand (R102). -/
theorem shiftAmount_eq (b : Word) : shiftAmount b = b.toNat % 64 := by
  simp [shiftAmount, BitVec.extractLsb'_toNat]

/-- The shift amount of an immediate operand (R102). -/
theorem shiftAmount_imm64 (m : Imm) : shiftAmount (imm64 m) = (m.toInt % 64).toNat := by
  have h := imm64_toNat m
  rw [shiftAmount_eq]
  omega

/-- The unsigned value of a left shift (R102). -/
theorem shiftLeft_toNat (a b : Word) : (shiftLeft a b).toNat = a.toNat * 2 ^ shiftAmount b % 2 ^ 64 := by
  rw [shiftLeft, BitVec.toNat_shiftLeft, Nat.shiftLeft_eq]

/-- The unsigned value of a logical right shift (R102). -/
theorem shiftRight_toNat (a b : Word) : (shiftRight a b).toNat = a.toNat / 2 ^ shiftAmount b := by
  rw [shiftRight, BitVec.toNat_ushiftRight, Nat.shiftRight_eq_div_pow]

/-- The signed value of an arithmetic right shift (R102). -/
theorem shiftRightArith_toInt (a b : Word) : (shiftRightArith a b).toInt = a.toInt / 2 ^ shiftAmount b := by
  rw [shiftRightArith, BitVec.toInt_sshiftRight, Int.shiftRight_eq_div_pow]
  norm_cast

/-- The value a truncation leaves (R130). -/
theorem truncZext_toNat {w : Nat} (hw : w ≤ 64) (a : Word) : (truncZext w a).toNat = a.toNat % 2 ^ w := by
  rw [truncZext, BitVec.toNat_setWidth, BitVec.toNat_setWidth]
  exact Nat.mod_eq_of_lt (lt_of_lt_of_le (Nat.mod_lt _ (Nat.two_pow_pos w)) (Nat.pow_le_pow_right (by decide) hw))

/-! ### Byte reversal -/

/-- A byte inside the kept bits of a value cut to `n` bits. -/
theorem byteOf_setWidth (a : Word) {n k : Nat} (h : 8 * k + 8 ≤ n) : byteOf (a.setWidth n) k = byteOf a k := by
  apply BitVec.eq_of_getLsbD_eq
  intro i hi
  simp only [byteOf, BitVec.getLsbD_extractLsb', BitVec.getLsbD_setWidth]
  simp [hi, show 8 * k + i < n by omega]

/-- The value of two bytes reversed (R130). -/
theorem byterev16_toNat (v : BitVec 16) : (byterev16 v).toNat = (byteOf v 0).toNat * 2 ^ 8 + (byteOf v 1).toNat :=
  toNat_append_eq _ _

/-- The value of four bytes reversed (R130). -/
theorem byterev32_toNat (v : BitVec 32) :
    (byterev32 v).toNat = (((byteOf v 0).toNat * 2 ^ 8 + (byteOf v 1).toNat) * 2 ^ 8 + (byteOf v 2).toNat) * 2 ^ 8 + (byteOf v 3).toNat := by
  refine (toNat_append_eq (byteOf v 0 ++ byteOf v 1 ++ byteOf v 2) (byteOf v 3)).trans ?_
  simp only [toNat_append_eq]

/-- The value of eight bytes reversed (R130). -/
theorem byterev64_toNat (v : BitVec 64) :
    (byterev64 v).toNat =
      (((((((byteOf v 0).toNat * 2 ^ 8 + (byteOf v 1).toNat) * 2 ^ 8 + (byteOf v 2).toNat) * 2 ^ 8 + (byteOf v 3).toNat)
        * 2 ^ 8 + (byteOf v 4).toNat) * 2 ^ 8 + (byteOf v 5).toNat) * 2 ^ 8 + (byteOf v 6).toNat) * 2 ^ 8 + (byteOf v 7).toNat := by
  refine (toNat_append_eq (byteOf v 0 ++ byteOf v 1 ++ byteOf v 2 ++ byteOf v 3 ++ byteOf v 4 ++ byteOf v 5 ++ byteOf v 6) (byteOf v 7)).trans ?_
  simp only [toNat_append_eq]

/-! ### Bytes of memory -/

/-- A read of one more byte. -/
theorem bytesValue_succ (m : Memory) (a n : Nat) :
    bytesValue m a (n + 1) = bytesValue m a n + (m.readByte (a + n)).toNat * 2 ^ (8 * n) :=
  Finset.sum_range_succ _ _

/-- `n` bytes hold a number of `8n` bits. -/
theorem bytesValue_lt (m : Memory) (a n : Nat) : bytesValue m a n < 2 ^ (8 * n) := by
  induction n with
  | zero => simp [bytesValue]
  | succ n ih =>
    have hb := (m.readByte (a + n)).isLt
    rw [bytesValue_succ, show 8 * (n + 1) = 8 * n + 8 by ring, pow_add]
    nlinarith [Nat.two_pow_pos (8 * n)]

/-- The value read from up to eight bytes (R34). -/
theorem readLE_toNat (m : Memory) (a : Nat) {n : Nat} (hn : n ≤ 8) : (m.readLE a n).toNat = bytesValue m a n := by
  induction n with
  | zero => simp [Memory.readLE, bytesValue]
  | succ n ih =>
    have hb := (m.readByte (a + n)).isLt
    have hl := bytesValue_lt m a n
    have hp : 2 ^ (8 * n) * 256 ≤ 2 ^ 64 := by
      calc 2 ^ (8 * n) * 256 = 2 ^ (8 * n + 8) := by rw [pow_add]; rfl
        _ ≤ 2 ^ 64 := Nat.pow_le_pow_right (by decide) (by omega)
    have hs : ((m.readByte (a + n)).setWidth 64 <<< (8 * n)).toNat = (m.readByte (a + n)).toNat <<< (8 * n) := by
      have hx : (m.readByte (a + n)).toNat < 2 ^ 64 := by omega
      have hy : (m.readByte (a + n)).toNat <<< (8 * n) < 2 ^ 64 := by
        rw [Nat.shiftLeft_eq]
        nlinarith [Nat.two_pow_pos (8 * n)]
      rw [BitVec.toNat_shiftLeft, BitVec.toNat_setWidth, Nat.mod_eq_of_lt hx, Nat.mod_eq_of_lt hy]
    rw [Memory.readLE, BitVec.toNat_or, ih (by omega), hs, Nat.lor_comm, ← Nat.shiftLeft_add_eq_or_of_lt hl,
      Nat.shiftLeft_eq, bytesValue_succ, Nat.add_comm]

/-- An access has at most eight bytes. -/
theorem width_bytes_le (w : Width) : Width.bytes w ≤ 8 := by cases w <;> decide

/-- The bounds check in the terms of claims (R32). -/
theorem inBounds_eq_true_iff (addr : Word) (w : Width) :
    inBounds addr w = true ↔ Admitted addr.toInt (Width.bytes w) := by
  simp [inBounds, Admitted]

end Sys2Proof.Machine
end

