-- ==== Sys2Proof/Laws/Ops.lean ====
section
/-!
SUPPORT. What each shared operation can do, said once: if it answers `next t`, then one of these cases holds. The provers
cite these instead of unfolding the operation.
-/

namespace Sys2Proof.Machine

/-- `raiseTrap` always answers, and changes the status only (R210). -/
theorem raiseTrap_next {reason : Trap} {s t : State} :
    raiseTrap reason s = .next t ↔ t = s.setStatus (.faulted reason) := by
  simp [raiseTrap, eq_comm]

/-- `halt` always answers, and changes the status only (R78). -/
theorem halt_next {code : Word} {s t : State} : halt code s = .next t ↔ t = s.setStatus (.halted code) := by
  simp [halt, eq_comm]

/-- `updateReg` always answers. -/
theorem updateReg_next {d : Reg} {f : Word → Word} {s t : State} :
    updateReg d f s = .next t ↔ t = (s.writeReg d (f (s.readReg d))).advance 1 := by
  simp [updateReg, eq_comm]

/-- All that `updateRegUnlessZero` can do. -/
theorem updateRegUnlessZero_next {d : Reg} {f : Word → Word → Word} {b : Word} {s t : State}
    (h : updateRegUnlessZero d f b s = .next t) :
    (b = 0 ∧ t = s.setStatus (.faulted .divisionByZero)) ∨
    (b ≠ 0 ∧ t = (s.writeReg d (f (s.readReg d) b)).advance 1) := by
  by_cases hb : b = 0
  · rw [updateRegUnlessZero, if_pos hb] at h
    exact .inl ⟨hb, raiseTrap_next.1 h⟩
  · rw [updateRegUnlessZero, if_neg hb] at h
    exact .inr ⟨hb, updateReg_next.1 h⟩

/-- All that `loadReg` can do (R34, R151). -/
theorem loadReg_next {d : Reg} {addr : Word} {w : Width} {s t : State} (h : loadReg d addr w s = .next t) :
    (inBounds addr w = true ∧
      t = (s.writeReg d (s.mem.readLE addr.toInt.toNat (Width.bytes w))).advance 1) ∨
    (inBounds addr w = false ∧ t = s.setStatus (.faulted (.memoryFault addr.toInt w))) := by
  cases hb : inBounds addr w
  · exact .inr ⟨rfl, raiseTrap_next.1 (by simpa [loadReg, memRead, hb] using h)⟩
  · exact .inl ⟨rfl, updateReg_next.1 (by simpa [loadReg, memRead, hb] using h)⟩

/-- All that `storeMem` can do (R35, R36). -/
theorem storeMem_next {addr : Word} {w : Width} {v : Word} {s t : State} (h : storeMem addr w v s = .next t) :
    (inBounds addr w = true ∧ t = (s.setMem (s.mem.writeLE addr.toInt.toNat v (Width.bytes w))).advance 1) ∨
    (inBounds addr w = false ∧ t = s.setStatus (.faulted (.memoryFault addr.toInt w))) := by
  cases hb : inBounds addr w
  · exact .inr ⟨rfl, raiseTrap_next.1 (by simpa [storeMem, memWrite, hb] using h)⟩
  · refine .inl ⟨rfl, ?_⟩
    simpa [storeMem, memWrite, hb, eq_comm] using h

/-- All that `jumpTo` can do (R171). -/
theorem jumpTo_next {target : Int} {s t : State} (h : jumpTo target s = .next t) :
    (target < 0 ∧ t = s.setStatus (.faulted (.invalidJumpTarget target))) ∨
    (0 ≤ target ∧ t = s.setPc target.toNat) := by
  by_cases hn : target < 0
  · exact .inl ⟨hn, raiseTrap_next.1 (by simpa [jumpTo, hn] using h)⟩
  · exact .inr ⟨by omega, by simpa [jumpTo, hn, eq_comm] using h⟩

/-- All that `jumpIf` can do (R170, R171). -/
theorem jumpIf_next {taken : Bool} {off : Off} {s t : State} (h : jumpIf taken off s = .next t) :
    (taken = false ∧ t = s.advance 1) ∨
    (taken = true ∧ jumpTarget off s < 0 ∧ t = s.setStatus (.faulted (.invalidJumpTarget (jumpTarget off s)))) ∨
    (taken = true ∧ 0 ≤ jumpTarget off s ∧ t = s.setPc (jumpTarget off s).toNat) := by
  cases taken
  · exact .inl ⟨rfl, by simpa [jumpIf, eq_comm] using h⟩
  · rcases jumpTo_next (by simpa [jumpIf] using h) with ⟨h1, h2⟩ | ⟨h1, h2⟩
    · exact .inr (.inl ⟨rfl, h1, h2⟩)
    · exact .inr (.inr ⟨rfl, h1, h2⟩)

/-- All that `execCall` can do (R195). -/
theorem execCall_next {m : Imm} {s t : State} (h : execCall m s = .next t) :
    (∃ ids, s.resolver = some ids ∧ m ∈ ids ∧ t = (s.writeReg 0 (Config.callResult m s.regs)).advance 1) ∨
    ((∀ ids, s.resolver = some ids → m ∉ ids) ∧ t = s.setStatus (.faulted (.unsupportedCall m.toInt))) := by
  cases hr : s.resolver with
  | none => exact .inr ⟨by simp, raiseTrap_next.1 (by simpa [execCall, hr] using h)⟩
  | some ids =>
    by_cases hm : m ∈ ids
    · exact .inl ⟨ids, rfl, hm, updateReg_next.1 (by simpa [execCall, hr, hm] using h)⟩
    · refine .inr ⟨by rintro _ ⟨rfl⟩; exact hm, raiseTrap_next.1 (by simpa [execCall, hr, hm] using h)⟩

/-- All that fetch can find (R72, R73). -/
theorem fetch_cases (prog : List Slot) (pc : Nat) :
    (prog.length ≤ pc ∧ fetch prog pc = none) ∨
    (∃ sl, prog[pc]? = some sl ∧ pc < prog.length ∧ fetch prog pc = some (sl, prog[pc + 1]?)) := by
  by_cases h : pc < prog.length
  · exact .inr ⟨prog[pc], by simp [h], h, by simp [fetch, h]⟩
  · exact .inl ⟨by omega, by simp [fetch, h]⟩

/-- All that a step can be (R71 to R76): absorbed, a fall off the end, a rejected slot, or the decoded instruction. -/
theorem step_cases (s : State) :
    (s.status.terminal = true ∧ step s = .next s) ∨
    (s.status.terminal = false ∧ s.prog.length ≤ s.pc ∧ step s = .next (s.setStatus (.halted (s.readReg 0)))) ∨
    (∃ sl e, s.status.terminal = false ∧ s.prog[s.pc]? = some sl ∧ decode sl s.prog[s.pc + 1]? = .error e ∧
      step s = .next (s.setStatus (.faulted (trapOfReject e)))) ∨
    (∃ sl i, s.status.terminal = false ∧ s.prog[s.pc]? = some sl ∧ decode sl s.prog[s.pc + 1]? = .ok i ∧
      step s = exec i (s.setStatus .running)) := by
  cases ht : s.status.terminal with
  | true => exact .inl ⟨rfl, by simp [step, stepWith, ht]⟩
  | false =>
    refine .inr ?_
    have hs : step s = runSlot exec (s.setStatus .running) := by simp [step, stepWith, ht]
    rcases fetch_cases s.prog s.pc with ⟨hl, hf⟩ | ⟨sl, hsl, _, hf⟩
    · refine .inl ⟨rfl, hl, ?_⟩
      rw [hs, runSlot]
      simp only [State.setStatus, hf]
      rfl
    · refine .inr ?_
      cases hd : decode sl s.prog[s.pc + 1]? with
      | error e =>
        refine .inl ⟨sl, e, rfl, hsl, hd, ?_⟩
        rw [hs, runSlot]
        simp only [State.setStatus, hf, hd]
        rfl
      | ok i =>
        refine .inr ⟨sl, i, rfl, hsl, hd, ?_⟩
        rw [hs, runSlot]
        simp only [State.setStatus, hf, hd]

end Sys2Proof.Machine
end

