-- ==== Sys2Proof/Laws/Exec.lean ====
section
/-!
SUPPORT. All that executing an instruction can do, said once: `exec_next`. Every claim about all instructions follows from
it without unfolding a meaning again.
-/

namespace Sys2Proof.Machine

/-- What a next state of an instruction can be: a register written and `pc` advanced; bytes stored; a jump or a jump not
taken; the halt of `EXIT`; the instruction's own trap. In all but the last, no trap of its own applies. -/
def ExecCases (i : Instr) (s t : State) : Prop :=
  ((∀ r, ¬ownTrap i s r) ∧
    ((∃ d v, writtenReg i = some d ∧ isStore i = false ∧
        (t = (s.writeReg d v).advance 1 ∨ (t = (s.writeReg d v).advance 2 ∧ ∃ lo hi, i = .lddw d lo hi))) ∨
      (∃ addr w v, writtenReg i = none ∧ isStore i = true ∧ memAccess i s = some (addr, w) ∧ inBounds addr w = true ∧
        t = (s.setMem (s.mem.writeLE addr.toInt.toNat v (Width.bytes w))).advance 1) ∨
      (∃ p, writtenReg i = none ∧ isStore i = false ∧ p ≤ s.pc + 32768 ∧ t = s.setPc p) ∨
      (i = .exit ∧ t = s.setStatus (.halted (s.readReg 0))))) ∨
  ∃ r, ownTrap i s r ∧ t = s.setStatus (.faulted r)

/-- An instruction with no access, no divisor, no jump and no call has no trap of its own. -/
theorem no_ownTrap {i : Instr} {s : State} (h1 : memAccess i s = none) (h2 : divisor i s = none)
    (h3 : takenOffset i s = none) (h4 : ∀ m, i ≠ .call m) (r : Trap) : ¬ownTrap i s r := by
  cases r <;> simp [ownTrap, h1, h2, h3, h4]

/-- The shape `updateReg`, for an instruction with no trap of its own. -/
theorem execCases_updateReg {i : Instr} {s t : State} {d : Reg} {f : Word → Word} (h : updateReg d f s = .next t)
    (hw : writtenReg i = some d) (hs : isStore i = false) (hn : ∀ r, ¬ownTrap i s r) : ExecCases i s t :=
  .inl ⟨hn, .inl ⟨d, _, hw, hs, .inl (updateReg_next.1 h)⟩⟩

/-- The shape `updateRegUnlessZero`. -/
theorem execCases_unlessZero {i : Instr} {s t : State} {d : Reg} {f : Word → Word → Word} {b : Word}
    (h : updateRegUnlessZero d f b s = .next t) (hw : writtenReg i = some d) (hs : isStore i = false)
    (h1 : memAccess i s = none) (h2 : divisor i s = some b) (h3 : takenOffset i s = none) (h4 : ∀ m, i ≠ .call m) :
    ExecCases i s t := by
  rcases updateRegUnlessZero_next h with ⟨hb, rfl⟩ | ⟨hb, rfl⟩
  · exact .inr ⟨.divisionByZero, h2.trans (congrArg some hb), rfl⟩
  · refine .inl ⟨fun r => ?_, .inl ⟨d, _, hw, hs, .inl rfl⟩⟩
    cases r <;> simp_all [ownTrap]

/-- The shape `loadReg`. -/
theorem execCases_loadReg {i : Instr} {s t : State} {d : Reg} {addr : Word} {w : Width} (h : loadReg d addr w s = .next t)
    (hw : writtenReg i = some d) (hs : isStore i = false) (h1 : memAccess i s = some (addr, w)) (h2 : divisor i s = none)
    (h3 : takenOffset i s = none) (h4 : ∀ m, i ≠ .call m) : ExecCases i s t := by
  have ha := inBounds_eq_true_iff addr w
  rcases loadReg_next h with ⟨hb, rfl⟩ | ⟨hb, rfl⟩
  · refine .inl ⟨fun r => ?_, .inl ⟨d, _, hw, hs, .inl rfl⟩⟩
    cases r <;> simp [ownTrap, h1, h2, h3, h4]
    rintro rfl rfl
    exact ha.1 hb
  · refine .inr ⟨.memoryFault addr.toInt w, ⟨addr, h1, rfl, fun c => ?_⟩, rfl⟩
    rw [ha.2 c] at hb
    cases hb

/-- The shape `storeMem`. -/
theorem execCases_storeMem {i : Instr} {s t : State} {addr : Word} {w : Width} {v : Word}
    (h : storeMem addr w v s = .next t) (hw : writtenReg i = none) (hs : isStore i = true) (h1 : memAccess i s = some (addr, w))
    (h2 : divisor i s = none) (h3 : takenOffset i s = none) (h4 : ∀ m, i ≠ .call m) : ExecCases i s t := by
  have ha := inBounds_eq_true_iff addr w
  rcases storeMem_next h with ⟨hb, rfl⟩ | ⟨hb, rfl⟩
  · refine .inl ⟨fun r => ?_, .inr (.inl ⟨addr, w, v, hw, hs, h1, hb, rfl⟩)⟩
    cases r <;> simp [ownTrap, h1, h2, h3, h4]
    rintro rfl rfl
    exact ha.1 hb
  · refine .inr ⟨.memoryFault addr.toInt w, ⟨addr, h1, rfl, fun c => ?_⟩, rfl⟩
    rw [ha.2 c] at hb
    cases hb

/-- The farthest target of a jump (R171). -/
theorem jumpTarget_le (o : Off) (s : State) : jumpTarget o s ≤ (s.pc : Int) + 32768 := by
  have := o.two_mul_toInt_lt
  unfold jumpTarget
  omega

/-- The shape `jumpIf`, of which `JA` is the case always taken. -/
theorem execCases_jumpIf {i : Instr} {s t : State} {taken : Bool} {o : Off} (h : jumpIf taken o s = .next t)
    (hw : writtenReg i = none) (hs : isStore i = false) (h1 : memAccess i s = none) (h2 : divisor i s = none)
    (h3 : takenOffset i s = if taken then some o else none) (h4 : ∀ m, i ≠ .call m) : ExecCases i s t := by
  rcases jumpIf_next h with ⟨ht, rfl⟩ | ⟨ht, hn, rfl⟩ | ⟨ht, hn, rfl⟩
  · refine .inl ⟨no_ownTrap h1 h2 (by simp [h3, ht]) h4, .inr (.inr (.inl ⟨s.pc + 1, hw, hs, by omega, rfl⟩))⟩
  · exact .inr ⟨.invalidJumpTarget (jumpTarget o s), ⟨o, by simp [h3, ht], rfl, hn⟩, rfl⟩
  · have hle := jumpTarget_le o s
    refine .inl ⟨fun r => ?_, .inr (.inr (.inl ⟨(jumpTarget o s).toNat, hw, hs, by omega, rfl⟩))⟩
    unfold jumpTarget at hn
    cases r <;> simp [ownTrap, h1, h2, h3, h4, ht]
    omega

/-- All that executing an instruction can do. -/
theorem exec_next {i : Instr} {s t : State} (h : exec i s = .next t) : ExecCases i s t := by
  cases i with
  | movImm d m =>
    simp only [exec, execMovImm] at h
    exact execCases_updateReg h rfl rfl (no_ownTrap rfl rfl rfl nofun)
  | movReg d r =>
    simp only [exec, execMovReg] at h
    exact execCases_updateReg h rfl rfl (no_ownTrap rfl rfl rfl nofun)
  | addImm d m =>
    simp only [exec, execAddImm] at h
    exact execCases_updateReg h rfl rfl (no_ownTrap rfl rfl rfl nofun)
  | addReg d r =>
    simp only [exec, execAddReg] at h
    exact execCases_updateReg h rfl rfl (no_ownTrap rfl rfl rfl nofun)
  | subImm d m =>
    simp only [exec, execSubImm] at h
    exact execCases_updateReg h rfl rfl (no_ownTrap rfl rfl rfl nofun)
  | subReg d r =>
    simp only [exec, execSubReg] at h
    exact execCases_updateReg h rfl rfl (no_ownTrap rfl rfl rfl nofun)
  | mulImm d m =>
    simp only [exec, execMulImm] at h
    exact execCases_updateReg h rfl rfl (no_ownTrap rfl rfl rfl nofun)
  | mulReg d r =>
    simp only [exec, execMulReg] at h
    exact execCases_updateReg h rfl rfl (no_ownTrap rfl rfl rfl nofun)
  | orImm d m =>
    simp only [exec, execOrImm] at h
    exact execCases_updateReg h rfl rfl (no_ownTrap rfl rfl rfl nofun)
  | orReg d r =>
    simp only [exec, execOrReg] at h
    exact execCases_updateReg h rfl rfl (no_ownTrap rfl rfl rfl nofun)
  | andImm d m =>
    simp only [exec, execAndImm] at h
    exact execCases_updateReg h rfl rfl (no_ownTrap rfl rfl rfl nofun)
  | andReg d r =>
    simp only [exec, execAndReg] at h
    exact execCases_updateReg h rfl rfl (no_ownTrap rfl rfl rfl nofun)
  | lshImm d m =>
    simp only [exec, execLshImm] at h
    exact execCases_updateReg h rfl rfl (no_ownTrap rfl rfl rfl nofun)
  | lshReg d r =>
    simp only [exec, execLshReg] at h
    exact execCases_updateReg h rfl rfl (no_ownTrap rfl rfl rfl nofun)
  | rshImm d m =>
    simp only [exec, execRshImm] at h
    exact execCases_updateReg h rfl rfl (no_ownTrap rfl rfl rfl nofun)
  | rshReg d r =>
    simp only [exec, execRshReg] at h
    exact execCases_updateReg h rfl rfl (no_ownTrap rfl rfl rfl nofun)
  | arshImm d m =>
    simp only [exec, execArshImm] at h
    exact execCases_updateReg h rfl rfl (no_ownTrap rfl rfl rfl nofun)
  | arshReg d r =>
    simp only [exec, execArshReg] at h
    exact execCases_updateReg h rfl rfl (no_ownTrap rfl rfl rfl nofun)
  | xorImm d m =>
    simp only [exec, execXorImm] at h
    exact execCases_updateReg h rfl rfl (no_ownTrap rfl rfl rfl nofun)
  | xorReg d r =>
    simp only [exec, execXorReg] at h
    exact execCases_updateReg h rfl rfl (no_ownTrap rfl rfl rfl nofun)
  | divImm d m =>
    simp only [exec, execDivImm] at h
    exact execCases_unlessZero h rfl rfl rfl rfl rfl nofun
  | divReg d r =>
    simp only [exec, execDivReg] at h
    exact execCases_unlessZero h rfl rfl rfl rfl rfl nofun
  | modImm d m =>
    simp only [exec, execModImm] at h
    exact execCases_unlessZero h rfl rfl rfl rfl rfl nofun
  | modReg d r =>
    simp only [exec, execModReg] at h
    exact execCases_unlessZero h rfl rfl rfl rfl rfl nofun
  | negImm d =>
    simp only [exec, execNegImm] at h
    exact execCases_updateReg h rfl rfl (no_ownTrap rfl rfl rfl nofun)
  | negReg d =>
    simp only [exec, execNegReg] at h
    exact execCases_updateReg h rfl rfl (no_ownTrap rfl rfl rfl nofun)
  | le16 d =>
    simp only [exec, execLe16] at h
    exact execCases_updateReg h rfl rfl (no_ownTrap rfl rfl rfl nofun)
  | le32 d =>
    simp only [exec, execLe32] at h
    exact execCases_updateReg h rfl rfl (no_ownTrap rfl rfl rfl nofun)
  | le64 d =>
    simp only [exec, execLe64] at h
    exact execCases_updateReg h rfl rfl (no_ownTrap rfl rfl rfl nofun)
  | be16 d =>
    simp only [exec, execBe16] at h
    exact execCases_updateReg h rfl rfl (no_ownTrap rfl rfl rfl nofun)
  | be32 d =>
    simp only [exec, execBe32] at h
    exact execCases_updateReg h rfl rfl (no_ownTrap rfl rfl rfl nofun)
  | be64 d =>
    simp only [exec, execBe64] at h
    exact execCases_updateReg h rfl rfl (no_ownTrap rfl rfl rfl nofun)
  | lddw d lo hi =>
    simp only [exec, execLddw] at h
    cases h
    exact .inl ⟨no_ownTrap rfl rfl rfl nofun, .inl ⟨d, _, rfl, rfl, .inr ⟨rfl, lo, hi, rfl⟩⟩⟩
  | ldabsb d m =>
    simp only [exec, execLdabsb] at h
    exact execCases_loadReg h rfl rfl rfl rfl rfl nofun
  | ldabsh d m =>
    simp only [exec, execLdabsh] at h
    exact execCases_loadReg h rfl rfl rfl rfl rfl nofun
  | ldabsw d m =>
    simp only [exec, execLdabsw] at h
    exact execCases_loadReg h rfl rfl rfl rfl rfl nofun
  | ldabsdw d m =>
    simp only [exec, execLdabsdw] at h
    exact execCases_loadReg h rfl rfl rfl rfl rfl nofun
  | ldindb d r m =>
    simp only [exec, execLdindb] at h
    exact execCases_loadReg h rfl rfl rfl rfl rfl nofun
  | ldindh d r m =>
    simp only [exec, execLdindh] at h
    exact execCases_loadReg h rfl rfl rfl rfl rfl nofun
  | ldindw d r m =>
    simp only [exec, execLdindw] at h
    exact execCases_loadReg h rfl rfl rfl rfl rfl nofun
  | ldinddw d r m =>
    simp only [exec, execLdinddw] at h
    exact execCases_loadReg h rfl rfl rfl rfl rfl nofun
  | ldxb d r o =>
    simp only [exec, execLdxb] at h
    exact execCases_loadReg h rfl rfl rfl rfl rfl nofun
  | ldxh d r o =>
    simp only [exec, execLdxh] at h
    exact execCases_loadReg h rfl rfl rfl rfl rfl nofun
  | ldxw d r o =>
    simp only [exec, execLdxw] at h
    exact execCases_loadReg h rfl rfl rfl rfl rfl nofun
  | ldxdw d r o =>
    simp only [exec, execLdxdw] at h
    exact execCases_loadReg h rfl rfl rfl rfl rfl nofun
  | stb d o m =>
    simp only [exec, execStb] at h
    exact execCases_storeMem h rfl rfl rfl rfl rfl nofun
  | sth d o m =>
    simp only [exec, execSth] at h
    exact execCases_storeMem h rfl rfl rfl rfl rfl nofun
  | stw d o m =>
    simp only [exec, execStw] at h
    exact execCases_storeMem h rfl rfl rfl rfl rfl nofun
  | stdw d o m =>
    simp only [exec, execStdw] at h
    exact execCases_storeMem h rfl rfl rfl rfl rfl nofun
  | stxb d r o =>
    simp only [exec, execStxb] at h
    exact execCases_storeMem h rfl rfl rfl rfl rfl nofun
  | stxh d r o =>
    simp only [exec, execStxh] at h
    exact execCases_storeMem h rfl rfl rfl rfl rfl nofun
  | stxw d r o =>
    simp only [exec, execStxw] at h
    exact execCases_storeMem h rfl rfl rfl rfl rfl nofun
  | stxdw d r o =>
    simp only [exec, execStxdw] at h
    exact execCases_storeMem h rfl rfl rfl rfl rfl nofun
  | ja o =>
    simp only [exec, execJa] at h
    exact execCases_jumpIf (taken := true) h rfl rfl rfl rfl rfl nofun
  | jeqImm d o m =>
    simp only [exec, execJeqImm] at h
    exact execCases_jumpIf h rfl rfl rfl rfl rfl nofun
  | jeqReg d r o =>
    simp only [exec, execJeqReg] at h
    exact execCases_jumpIf h rfl rfl rfl rfl rfl nofun
  | jgtImm d o m =>
    simp only [exec, execJgtImm] at h
    exact execCases_jumpIf h rfl rfl rfl rfl rfl nofun
  | jgtReg d r o =>
    simp only [exec, execJgtReg] at h
    exact execCases_jumpIf h rfl rfl rfl rfl rfl nofun
  | jgeImm d o m =>
    simp only [exec, execJgeImm] at h
    exact execCases_jumpIf h rfl rfl rfl rfl rfl nofun
  | jgeReg d r o =>
    simp only [exec, execJgeReg] at h
    exact execCases_jumpIf h rfl rfl rfl rfl rfl nofun
  | jltImm d o m =>
    simp only [exec, execJltImm] at h
    exact execCases_jumpIf h rfl rfl rfl rfl rfl nofun
  | jltReg d r o =>
    simp only [exec, execJltReg] at h
    exact execCases_jumpIf h rfl rfl rfl rfl rfl nofun
  | jleImm d o m =>
    simp only [exec, execJleImm] at h
    exact execCases_jumpIf h rfl rfl rfl rfl rfl nofun
  | jleReg d r o =>
    simp only [exec, execJleReg] at h
    exact execCases_jumpIf h rfl rfl rfl rfl rfl nofun
  | jsetImm d o m =>
    simp only [exec, execJsetImm] at h
    exact execCases_jumpIf h rfl rfl rfl rfl rfl nofun
  | jsetReg d r o =>
    simp only [exec, execJsetReg] at h
    exact execCases_jumpIf h rfl rfl rfl rfl rfl nofun
  | jneImm d o m =>
    simp only [exec, execJneImm] at h
    exact execCases_jumpIf h rfl rfl rfl rfl rfl nofun
  | jneReg d r o =>
    simp only [exec, execJneReg] at h
    exact execCases_jumpIf h rfl rfl rfl rfl rfl nofun
  | jsgtImm d o m =>
    simp only [exec, execJsgtImm] at h
    exact execCases_jumpIf h rfl rfl rfl rfl rfl nofun
  | jsgtReg d r o =>
    simp only [exec, execJsgtReg] at h
    exact execCases_jumpIf h rfl rfl rfl rfl rfl nofun
  | jsgeImm d o m =>
    simp only [exec, execJsgeImm] at h
    exact execCases_jumpIf h rfl rfl rfl rfl rfl nofun
  | jsgeReg d r o =>
    simp only [exec, execJsgeReg] at h
    exact execCases_jumpIf h rfl rfl rfl rfl rfl nofun
  | jsltImm d o m =>
    simp only [exec, execJsltImm] at h
    exact execCases_jumpIf h rfl rfl rfl rfl rfl nofun
  | jsltReg d r o =>
    simp only [exec, execJsltReg] at h
    exact execCases_jumpIf h rfl rfl rfl rfl rfl nofun
  | jsleImm d o m =>
    simp only [exec, execJsleImm] at h
    exact execCases_jumpIf h rfl rfl rfl rfl rfl nofun
  | jsleReg d r o =>
    simp only [exec, execJsleReg] at h
    exact execCases_jumpIf h rfl rfl rfl rfl rfl nofun
  | call m =>
    rcases execCall_next h with ⟨ids, hr, hm, rfl⟩ | ⟨hu, rfl⟩
    · refine .inl ⟨fun r => ?_, .inl ⟨0, _, rfl, rfl, .inl rfl⟩⟩
      cases r <;> simp [ownTrap, memAccess, divisor, takenOffset]
      rintro rfl hu
      exact hu ids hr hm
    · exact .inr ⟨.unsupportedCall m.toInt, ⟨m, rfl, rfl, hu⟩, rfl⟩
  | exit =>
    obtain rfl := halt_next.1 h
    exact .inl ⟨no_ownTrap rfl rfl rfl nofun, .inr (.inr (.inr ⟨rfl, rfl⟩))⟩

end Sys2Proof.Machine
end

