-- ==== Sys2Proof/Laws/Memory.lean ====
section
/-!
SUPPORT. The memory's laws: the canonical form is kept, a byte reads what was last written to it, and what the two
primitives `memRead` and `memWrite` can do, said once.
-/

namespace Sys2Proof.Machine

/-! ### One byte -/

/-- In a memory listed from `lo` on, an address below `lo` is unlisted. -/
theorem readByte_below {m : Memory} {lo a : Nat} (h : Memory.wfFrom lo m = true) (ha : a < lo) :
    m.readByte a = unlistedByte := by
  induction m generalizing lo with
  | nil => rfl
  | cons c m ih =>
    obtain ⟨b, x⟩ := c
    simp only [Memory.wfFrom, Bool.and_eq_true, decide_eq_true_eq] at h
    have hne : a ≠ b := by omega
    simpa [Memory.readByte, hne] using ih h.2 (by omega)

/-- A byte reads what was last written to it. -/
theorem readByte_writeByte_same {m : Memory} {lo : Nat} (h : Memory.wfFrom lo m = true) (a : Nat) (v : Byte) :
    (m.writeByte a v).readByte a = v := by
  induction m generalizing lo with
  | nil => by_cases hv : v = unlistedByte <;> simp [Memory.writeByte, Memory.readByte, hv]
  | cons c m ih =>
    obtain ⟨b, x⟩ := c
    simp only [Memory.wfFrom, Bool.and_eq_true, decide_eq_true_eq] at h
    by_cases hlt : a < b
    · have hne : a ≠ b := by omega
      by_cases hv : v = unlistedByte
      · simpa [Memory.writeByte, Memory.readByte, hlt, hne, hv] using readByte_below h.2 (by omega : a < b + 1)
      · simp [Memory.writeByte, Memory.readByte, hlt, hv]
    · by_cases heq : a = b
      · subst heq
        by_cases hv : v = unlistedByte
        · simpa [Memory.writeByte, hv] using readByte_below h.2 (Nat.lt_succ_self a)
        · simp [Memory.writeByte, Memory.readByte, hv]
      · simpa [Memory.writeByte, Memory.readByte, hlt, heq] using ih h.2

/-- Writing one byte leaves every other as it was, whatever the memory's form. -/
theorem readByte_writeByte_ne (m : Memory) {a q : Nat} (v : Byte) (hq : q ≠ a) :
    (m.writeByte a v).readByte q = m.readByte q := by
  induction m with
  | nil => by_cases hv : v = unlistedByte <;> simp [Memory.writeByte, Memory.readByte, hv, hq]
  | cons c m ih =>
    obtain ⟨b, x⟩ := c
    by_cases hlt : a < b
    · by_cases hv : v = unlistedByte <;> simp [Memory.writeByte, Memory.readByte, hlt, hv, hq]
    · by_cases heq : a = b
      · subst heq
        by_cases hv : v = unlistedByte <;> simp [Memory.writeByte, Memory.readByte, hv, hq]
      · simp [Memory.writeByte, Memory.readByte, hlt, heq, ih]

/-- Writing a byte inside the memory keeps the canonical form. -/
theorem wfFrom_writeByte {m : Memory} {lo : Nat} (h : Memory.wfFrom lo m = true) {a : Nat} (hlo : lo ≤ a)
    (ha : a < Config.memorySize) (v : Byte) : Memory.wfFrom lo (m.writeByte a v) = true := by
  induction m generalizing lo with
  | nil => by_cases hv : v = unlistedByte <;> simp [Memory.writeByte, Memory.wfFrom, hv, hlo, ha]
  | cons c m ih =>
    obtain ⟨b, x⟩ := c
    simp only [Memory.wfFrom, Bool.and_eq_true, decide_eq_true_eq] at h
    obtain ⟨⟨⟨h1, h2⟩, h3⟩, h4⟩ := h
    by_cases hlt : a < b
    · by_cases hv : v = unlistedByte
      · simp [Memory.writeByte, Memory.wfFrom, hlt, hv, h1, h2, h3, h4]
      · simp [Memory.writeByte, Memory.wfFrom, hlt, hv, hlo, ha, h2, h3, h4, Nat.succ_le_of_lt hlt]
    · by_cases heq : a = b
      · subst heq
        by_cases hv : v = unlistedByte
        · have mono : ∀ {k l : Nat} {m : Memory}, k ≤ l → Memory.wfFrom l m = true → Memory.wfFrom k m = true := by
            intro k l m hkl hm
            cases m with
            | nil => rfl
            | cons c m =>
              simp only [Memory.wfFrom, Bool.and_eq_true, decide_eq_true_eq] at hm ⊢
              exact ⟨⟨⟨by omega, hm.1.1.2⟩, hm.1.2⟩, hm.2⟩
          simpa [Memory.writeByte, hv] using mono (by omega) h4
        · simp [Memory.writeByte, Memory.wfFrom, hv, hlo, ha, h4]
      · have hba : b + 1 ≤ a := by omega
        simp [Memory.writeByte, Memory.wfFrom, hlt, heq, h1, h2, h3, ih h4 hba]

/-- The canonical form is kept by a write inside the memory. -/
theorem wf_writeByte {m : Memory} (h : m.wf = true) {a : Nat} (ha : a < Config.memorySize) (v : Byte) :
    (m.writeByte a v).wf = true :=
  wfFrom_writeByte h (Nat.zero_le a) ha v

/-- The memory at reset is canonical. -/
theorem wf_reset : State.reset.mem.wf = true := rfl

/-! ### Several bytes -/

/-- The canonical form is kept by a write of `n` bytes inside the memory. -/
theorem wf_writeLE {m : Memory} (h : m.wf = true) (a : Nat) (v : Word) {n : Nat} (hn : a + n ≤ Config.memorySize) :
    (m.writeLE a v n).wf = true := by
  induction n with
  | zero => exact h
  | succ n ih => exact wf_writeByte (ih (by omega)) (by omega) _

/-- Byte `j` of a write of `n` bytes reads as byte `j` of the value. -/
theorem readByte_writeLE_inside {m : Memory} (h : m.wf = true) (a : Nat) (v : Word) {n j : Nat}
    (hn : a + n ≤ Config.memorySize) (hj : j < n) : (m.writeLE a v n).readByte (a + j) = byteOf v j := by
  induction n with
  | zero => omega
  | succ n ih =>
    by_cases hjn : j = n
    · subst hjn
      exact readByte_writeByte_same (wf_writeLE h a v (by omega)) _ _
    · rw [Memory.writeLE, readByte_writeByte_ne _ _ (by omega)]
      exact ih (by omega) (by omega)

/-- A byte outside a write of `n` bytes reads as before. -/
theorem readByte_writeLE_outside (m : Memory) (a : Nat) (v : Word) {n q : Nat} (hq : q < a ∨ a + n ≤ q) :
    (m.writeLE a v n).readByte q = m.readByte q := by
  induction n with
  | zero => rfl
  | succ n ih =>
    rw [Memory.writeLE, readByte_writeByte_ne _ _ (by omega)]
    exact ih (by omega)

/-! ### The primitives -/

/-- The bounds check in numbers (R32). -/
theorem inBounds_iff (addr : Word) (w : Width) :
    inBounds addr w = true ↔ 0 ≤ addr.toInt ∧ addr.toInt + Width.bytes w ≤ 65536 := by
  simp [inBounds]

/-- All that `memRead` can do (R34). -/
theorem memRead_cases (m : Memory) (addr : Word) (w : Width) :
    (inBounds addr w = true ∧ memRead m addr w = .ok (m.readLE addr.toInt.toNat (Width.bytes w))) ∨
    (inBounds addr w = false ∧ memRead m addr w = .error (.memoryFault addr.toInt w)) := by
  cases h : inBounds addr w <;> simp [memRead, h]

/-- All that `memWrite` can do (R35, R36). -/
theorem memWrite_cases (m : Memory) (addr : Word) (w : Width) (v : Word) :
    (inBounds addr w = true ∧ memWrite m addr w v = .ok (m.writeLE addr.toInt.toNat v (Width.bytes w))) ∨
    (inBounds addr w = false ∧ memWrite m addr w v = .error (.memoryFault addr.toInt w)) := by
  cases h : inBounds addr w <;> simp [memWrite, h]

/-- A write that succeeds keeps the canonical form. -/
theorem memWrite_wf {m m' : Memory} {addr : Word} {w : Width} {v : Word} (h : m.wf = true)
    (hw : memWrite m addr w v = .ok m') : m'.wf = true := by
  rcases memWrite_cases m addr w v with ⟨hb, he⟩ | ⟨_, he⟩
  · rw [he] at hw
    cases hw
    obtain ⟨h0, h1⟩ := (inBounds_iff addr w).1 hb
    exact wf_writeLE h _ _ (show _ ≤ 65536 by omega)
  · rw [he] at hw
    cases hw

end Sys2Proof.Machine
end

