-- ==== Sys2Proof/Laws/State.lean ====
section
/-!
SUPPORT. The small lemmas of the state: one per field per update, and what a register reads after each update.
-/

namespace Sys2Proof.Machine

/-! ### `writeReg` -/

@[simp] theorem writeReg_prog (s : State) (r : Reg) (v : Word) : (s.writeReg r v).prog = s.prog := rfl
@[simp] theorem writeReg_regs (s : State) (r : Reg) (v : Word) : (s.writeReg r v).regs = s.regs.set r.val v r.isLt := rfl
@[simp] theorem writeReg_pc (s : State) (r : Reg) (v : Word) : (s.writeReg r v).pc = s.pc := rfl
@[simp] theorem writeReg_mem (s : State) (r : Reg) (v : Word) : (s.writeReg r v).mem = s.mem := rfl
@[simp] theorem writeReg_status (s : State) (r : Reg) (v : Word) : (s.writeReg r v).status = s.status := rfl
@[simp] theorem writeReg_resolver (s : State) (r : Reg) (v : Word) : (s.writeReg r v).resolver = s.resolver := rfl

/-! ### `advance` -/

@[simp] theorem advance_prog (s : State) (n : Nat) : (s.advance n).prog = s.prog := rfl
@[simp] theorem advance_regs (s : State) (n : Nat) : (s.advance n).regs = s.regs := rfl
@[simp] theorem advance_pc (s : State) (n : Nat) : (s.advance n).pc = s.pc + n := rfl
@[simp] theorem advance_mem (s : State) (n : Nat) : (s.advance n).mem = s.mem := rfl
@[simp] theorem advance_status (s : State) (n : Nat) : (s.advance n).status = s.status := rfl
@[simp] theorem advance_resolver (s : State) (n : Nat) : (s.advance n).resolver = s.resolver := rfl
@[simp] theorem readReg_advance (s : State) (n : Nat) (q : Reg) : (s.advance n).readReg q = s.readReg q := rfl

/-! ### `setPc` -/

@[simp] theorem setPc_prog (s : State) (n : Nat) : (s.setPc n).prog = s.prog := rfl
@[simp] theorem setPc_regs (s : State) (n : Nat) : (s.setPc n).regs = s.regs := rfl
@[simp] theorem setPc_pc (s : State) (n : Nat) : (s.setPc n).pc = n := rfl
@[simp] theorem setPc_mem (s : State) (n : Nat) : (s.setPc n).mem = s.mem := rfl
@[simp] theorem setPc_status (s : State) (n : Nat) : (s.setPc n).status = s.status := rfl
@[simp] theorem setPc_resolver (s : State) (n : Nat) : (s.setPc n).resolver = s.resolver := rfl
@[simp] theorem readReg_setPc (s : State) (n : Nat) (q : Reg) : (s.setPc n).readReg q = s.readReg q := rfl

/-! ### `setMem` -/

@[simp] theorem setMem_prog (s : State) (m : Memory) : (s.setMem m).prog = s.prog := rfl
@[simp] theorem setMem_regs (s : State) (m : Memory) : (s.setMem m).regs = s.regs := rfl
@[simp] theorem setMem_pc (s : State) (m : Memory) : (s.setMem m).pc = s.pc := rfl
@[simp] theorem setMem_mem (s : State) (m : Memory) : (s.setMem m).mem = m := rfl
@[simp] theorem setMem_status (s : State) (m : Memory) : (s.setMem m).status = s.status := rfl
@[simp] theorem setMem_resolver (s : State) (m : Memory) : (s.setMem m).resolver = s.resolver := rfl
@[simp] theorem readReg_setMem (s : State) (m : Memory) (q : Reg) : (s.setMem m).readReg q = s.readReg q := rfl

/-! ### `setStatus` -/

@[simp] theorem setStatus_prog (s : State) (st : Status) : (s.setStatus st).prog = s.prog := rfl
@[simp] theorem setStatus_regs (s : State) (st : Status) : (s.setStatus st).regs = s.regs := rfl
@[simp] theorem setStatus_pc (s : State) (st : Status) : (s.setStatus st).pc = s.pc := rfl
@[simp] theorem setStatus_mem (s : State) (st : Status) : (s.setStatus st).mem = s.mem := rfl
@[simp] theorem setStatus_status (s : State) (st : Status) : (s.setStatus st).status = st := rfl
@[simp] theorem setStatus_resolver (s : State) (st : Status) : (s.setStatus st).resolver = s.resolver := rfl
@[simp] theorem readReg_setStatus (s : State) (st : Status) (q : Reg) : (s.setStatus st).readReg q = s.readReg q := rfl

/-- A register reads what was last written to it. -/
@[simp] theorem readReg_writeReg_same (s : State) (r : Reg) (v : Word) : (s.writeReg r v).readReg r = v := by
  simp [State.readReg, State.writeReg, Vector.get_eq_getElem]

/-- Writing one register leaves every other as it was. -/
@[simp] theorem readReg_writeReg_ne (s : State) (r q : Reg) (v : Word) (h : q ≠ r) :
    (s.writeReg r v).readReg q = s.readReg q := by
  have hv : r.val ≠ q.val := fun e => h (Fin.ext e.symm)
  simp [State.readReg, State.writeReg, Vector.get_eq_getElem, hv]

/-- Setting the status it has already changes nothing. -/
@[simp] theorem setStatus_self (s : State) : s.setStatus s.status = s := rfl

@[simp] theorem setStatus_setStatus (s : State) (a b : Status) : (s.setStatus a).setStatus b = s.setStatus b := rfl

/-! ### `State.reset`, `State.restart`, `State.init`, `State.placeFetch` -/

@[simp] theorem reset_prog : State.reset.prog = [] := rfl
@[simp] theorem reset_pc : State.reset.pc = 0 := rfl
@[simp] theorem reset_mem : State.reset.mem = [] := rfl
@[simp] theorem reset_status : State.reset.status = .ready := rfl
@[simp] theorem reset_resolver : State.reset.resolver = none := rfl
@[simp] theorem readReg_reset (r : Reg) : State.reset.readReg r = 0 := by
  simp [State.readReg, State.reset, Vector.get_eq_getElem]

@[simp] theorem restart_prog (s : State) : s.restart.prog = s.prog := rfl
@[simp] theorem restart_pc (s : State) : s.restart.pc = 0 := rfl
@[simp] theorem restart_mem (s : State) : s.restart.mem = [] := rfl
@[simp] theorem restart_status (s : State) : s.restart.status = .ready := rfl
@[simp] theorem restart_resolver (s : State) : s.restart.resolver = s.resolver := rfl
@[simp] theorem readReg_restart (s : State) (r : Reg) : s.restart.readReg r = 0 := readReg_reset r

@[simp] theorem init_prog (p : List Slot) (q : Option (List Imm)) : (State.init p q).prog = p := rfl
@[simp] theorem init_pc (p : List Slot) (q : Option (List Imm)) : (State.init p q).pc = 0 := rfl
@[simp] theorem init_mem (p : List Slot) (q : Option (List Imm)) : (State.init p q).mem = [] := rfl
@[simp] theorem init_status (p : List Slot) (q : Option (List Imm)) : (State.init p q).status = .ready := rfl
@[simp] theorem init_resolver (p : List Slot) (q : Option (List Imm)) : (State.init p q).resolver = q := rfl
@[simp] theorem readReg_init (p : List Slot) (q : Option (List Imm)) (r : Reg) : (State.init p q).readReg r = 0 :=
  readReg_reset r

@[simp] theorem placeFetch_regs (s : State) (l : List Slot) : (s.placeFetch l).regs = s.regs := rfl
@[simp] theorem placeFetch_pc (s : State) (l : List Slot) : (s.placeFetch l).pc = s.pc := rfl
@[simp] theorem placeFetch_mem (s : State) (l : List Slot) : (s.placeFetch l).mem = s.mem := rfl
@[simp] theorem placeFetch_resolver (s : State) (l : List Slot) : (s.placeFetch l).resolver = s.resolver := rfl

end Sys2Proof.Machine
end

