-- ==== Sys2Proof/Laws/Frames.lean ====
section
/-!
SUPPORT. How the shared shapes of the instruction rules answer, in the terms of claims: one lemma per shape, cited with
`rfl` for the instruction that has it.
-/

namespace Sys2Proof.Machine

/-- A register reads what was just written to it. -/
theorem readReg_writeReg_eq (s : State) (d : Reg) (v : Word) : (s.writeReg d v).readReg d = v := by
  simp

/-- A register that was not written reads as before. -/
theorem readReg_writeReg_other (s : State) {d r : Reg} (v : Word) (h : r ≠ d) : (s.writeReg d v).readReg r = s.readReg r := by
  simp [h]

/-- Nothing but the status changes when the status is replaced. -/
theorem onlyStatus_setStatus (s : State) (st : Status) : OnlyStatus s (s.setStatus st) :=
  ⟨fun _ => rfl, fun _ => rfl, rfl, rfl, rfl⟩

/-- A register written, then `pc` advanced. -/
theorem writesReg_of_next {i : Instr} {s : State} {d : Reg} {n : Nat} {v : Word} {P : Word → Prop}
    (h : exec i s = .next ((s.writeReg d v).advance n)) (hP : P v) : WritesReg i s d n P :=
  ⟨_, h, by simpa using hP, fun r hr => by simp [hr], fun _ => rfl, rfl, rfl, rfl, rfl⟩

/-- The shape `updateReg`. -/
theorem writesReg_updateReg {i : Instr} {s : State} {d : Reg} {f : Word → Word} {P : Word → Prop}
    (h : exec i s = updateReg d f s) (hP : P (f (s.readReg d))) : WritesReg i s d 1 P :=
  writesReg_of_next h hP

/-- The shape `raiseTrap`. -/
theorem takesTrap_raiseTrap {i : Instr} {s : State} {r : Trap} (h : exec i s = raiseTrap r s) : TakesTrap i s r :=
  ⟨_, h, rfl, onlyStatus_setStatus s _⟩

/-- The shape `updateRegUnlessZero`, operand not zero. -/
theorem writesReg_unlessZero {i : Instr} {s : State} {d : Reg} {f : Word → Word → Word} {b : Word} {P : Word → Prop}
    (h : exec i s = updateRegUnlessZero d f b s) (hb : b ≠ 0) (hP : P (f (s.readReg d) b)) : WritesReg i s d 1 P :=
  writesReg_updateReg (h.trans (if_neg hb)) hP

/-- The shape `updateRegUnlessZero`, operand zero. -/
theorem takesTrap_unlessZero {i : Instr} {s : State} {d : Reg} {f : Word → Word → Word} {b : Word}
    (h : exec i s = updateRegUnlessZero d f b s) (hb : b = 0) : TakesTrap i s .divisionByZero :=
  takesTrap_raiseTrap (h.trans (if_pos hb))

/-- The shape `loadReg`, access admitted. -/
theorem writesReg_loadReg {i : Instr} {s : State} {d : Reg} {addr : Word} {w : Width} (h : exec i s = loadReg d addr w s)
    (hb : Admitted addr.toInt (Width.bytes w)) :
    WritesReg i s d 1 (fun v => v.toNat = bytesValue s.mem addr.toInt.toNat (Width.bytes w)) := by
  have hb := (inBounds_eq_true_iff addr w).2 hb
  refine writesReg_of_next (v := s.mem.readLE addr.toInt.toNat (Width.bytes w)) ?_ (readLE_toNat _ _ (width_bytes_le w))
  rw [h, loadReg, memRead, if_pos hb]
  rfl

/-- The shape `loadReg`, access not admitted. -/
theorem takesTrap_loadReg {i : Instr} {s : State} {d : Reg} {addr : Word} {w : Width} (h : exec i s = loadReg d addr w s)
    (hb : ¬Admitted addr.toInt (Width.bytes w)) : TakesTrap i s (.memoryFault addr.toInt w) := by
  refine takesTrap_raiseTrap ?_
  rw [h, loadReg, memRead, if_neg (fun c => hb ((inBounds_eq_true_iff addr w).1 c))]

/-- The shape `storeMem`, access admitted. -/
theorem storesBytes_storeMem {i : Instr} {s : State} {addr : Word} {w : Width} {v : Word} {f : Nat → Int}
    (h : exec i s = storeMem addr w v s) (hm : s.mem.wf = true) (hb : Admitted addr.toInt (Width.bytes w))
    (hf : ∀ j : Nat, j < Width.bytes w → ((byteOf v j).toNat : Int) = f j) :
    StoresBytes i s addr.toInt (Width.bytes w) f := by
  have hi := (inBounds_eq_true_iff addr w).2 hb
  obtain ⟨h0, h1⟩ := hb
  have hfit : addr.toInt.toNat + Width.bytes w ≤ 65536 := by omega
  refine ⟨(s.setMem (s.mem.writeLE addr.toInt.toNat v (Width.bytes w))).advance 1, ?_, ?_, ?_, fun _ => rfl, rfl, rfl, rfl, rfl⟩
  · rw [h, storeMem, memWrite, if_pos hi]
  · intro j hj
    rw [← hf j hj]
    exact congrArg (fun b : Byte => (b.toNat : Int)) (readByte_writeLE_inside hm _ v hfit hj)
  · intro a ha
    exact readByte_writeLE_outside s.mem _ v (by omega)

/-- The shape `storeMem`, access not admitted. -/
theorem takesTrap_storeMem {i : Instr} {s : State} {addr : Word} {w : Width} {v : Word}
    (h : exec i s = storeMem addr w v s) (hb : ¬Admitted addr.toInt (Width.bytes w)) :
    TakesTrap i s (.memoryFault addr.toInt w) := by
  refine takesTrap_raiseTrap ?_
  rw [h, storeMem, memWrite, if_neg (fun c => hb ((inBounds_eq_true_iff addr w).1 c))]

/-- The shape `jumpTo`, target at least 0. -/
theorem goesTo_jumpTo {i : Instr} {s : State} {target : Int} (h : exec i s = jumpTo target s) (ht : 0 ≤ target) :
    GoesTo i s target.toNat :=
  ⟨s.setPc target.toNat, h.trans (if_neg (by omega)), rfl, fun _ => rfl, fun _ => rfl, rfl, rfl, rfl⟩

/-- The shape `jumpTo`, target below 0. -/
theorem takesTrap_jumpTo {i : Instr} {s : State} {target : Int} (h : exec i s = jumpTo target s) (ht : target < 0) :
    TakesTrap i s (.invalidJumpTarget target) :=
  takesTrap_raiseTrap (h.trans (if_pos ht))

/-- The shape `jumpIf`. -/
theorem jumpsOn_jumpIf {i : Instr} {s : State} {taken : Bool} {o : Off} {c : Prop} (h : exec i s = jumpIf taken o s)
    (hc : taken = true ↔ c) : JumpsOn i s o c := by
  refine ⟨fun ht h0 => ?_, fun hf => ?_, fun ht hn => ?_⟩
  · exact goesTo_jumpTo (h.trans (if_pos (hc.2 ht))) h0
  · exact ⟨s.advance 1, h.trans (if_neg (fun e => hf (hc.1 e))), rfl, fun _ => rfl, fun _ => rfl, rfl, rfl, rfl⟩
  · exact takesTrap_jumpTo (h.trans (if_pos (hc.2 ht))) hn

end Sys2Proof.Machine
end

