-- ==== Sys2Proof/Laws/Interface.lean ====
section
/-!
SUPPORT. What the host's transactions can do, said once: which programs a block accepts, and the answers of a load.
-/

namespace Sys2Proof.Machine

variable {progMax : Option Nat} {bytes : List Byte} {resolver : Option (List Imm)} {s : State}

/-- What `PROG_MAX` admits (R4): every length where there is no limit, else those up to it. -/
theorem acceptsLength_iff {n : Nat} : acceptsLength progMax n = true ↔ ∀ m ∈ progMax, n ≤ m := by
  cases progMax <;> simp [acceptsLength]

/-- All that a load can answer (R52, R231, R4). -/
theorem load_cases (progMax : Option Nat) (bytes : List Byte) (resolver : Option (List Imm)) :
    (∃ e, decodeProgram bytes = .error e ∧ load progMax bytes resolver = .error (.decode e)) ∨
    (∃ prog, decodeProgram bytes = .ok prog ∧ acceptsLength progMax prog.length = false ∧
      load progMax bytes resolver = .error (.programTooLong prog.length)) ∨
    (∃ prog, decodeProgram bytes = .ok prog ∧ acceptsLength progMax prog.length = true ∧
      load progMax bytes resolver = .ok (State.init prog resolver)) := by
  unfold load
  cases decodeProgram bytes with
  | error e => exact .inl ⟨e, rfl, rfl⟩
  | ok prog =>
    cases h : acceptsLength progMax prog.length
    · exact .inr (.inl ⟨prog, rfl, h, by simp [h]⟩)
    · exact .inr (.inr ⟨prog, rfl, h, by simp [h]⟩)

/-- A load answers a state exactly for an accepted program, and then its initial state (R231). -/
theorem load_eq_ok_iff :
    load progMax bytes resolver = .ok s ↔
      ∃ prog, decodeProgram bytes = .ok prog ∧ acceptsLength progMax prog.length = true ∧ s = State.init prog resolver := by
  rcases load_cases progMax bytes resolver with ⟨_, hd, h⟩ | ⟨_, hd, ha, h⟩ | ⟨prog, hd, ha, h⟩ <;> rw [h, hd]
  · simp
  · simp [ha]
  · constructor
    · rintro ⟨⟩
      exact ⟨prog, rfl, ha, rfl⟩
    · rintro ⟨_, ⟨⟩, _, rfl⟩
      rfl

end Sys2Proof.Machine
end

