-- ==== Sys2Proof/Laws/PerInstr.lean ====
section
/-!
SUPPORT. A family over the instructions as they are written: the encoding of every instruction passes the run-time checks
of R74 and R75.
-/

namespace Sys2Proof.Laws

/-- The first slot of the encoding is well formed, given the slot that follows it in the encoding, if any. -/
def EncodesWellFormed.Statement (i : Instr) : Prop :=
  ∃ sl rest, encode i = sl :: rest ∧ sl.WellFormed rest.head?

/-- One slot with a known opcode, a good selector and registers that exist is well formed. -/
theorem oneSlot_wellFormed {op : Byte} {d r : RegField} {o : Off} {m : Imm} (h1 : op ∈ recognisedOpcodes)
    (h2 : op = 0xd4 ∨ op = 0xdc → m.toInt = 16 ∨ m.toInt = 32 ∨ m.toInt = 64) (h3 : op ≠ 0x18)
    (h4 : d.toNat ≤ 10) (h5 : r.toNat ≤ 10) : (slotOf op d r o m).WellFormed none :=
  ⟨h1, h2, fun h => absurd h h3, h4, h5⟩

theorem EncodesWellFormed.movImm (d : Reg) (m : Imm) : EncodesWellFormed.Statement (.movImm d m) :=
  ⟨_, _, rfl, oneSlot_wellFormed (by decide) (fun h => absurd h (by decide)) (by decide) (fieldOfReg_le d) (Nat.zero_le 10)⟩

theorem EncodesWellFormed.movReg (d : Reg) (r : Reg) : EncodesWellFormed.Statement (.movReg d r) :=
  ⟨_, _, rfl, oneSlot_wellFormed (by decide) (fun h => absurd h (by decide)) (by decide) (fieldOfReg_le d) (fieldOfReg_le r)⟩

theorem EncodesWellFormed.addImm (d : Reg) (m : Imm) : EncodesWellFormed.Statement (.addImm d m) :=
  ⟨_, _, rfl, oneSlot_wellFormed (by decide) (fun h => absurd h (by decide)) (by decide) (fieldOfReg_le d) (Nat.zero_le 10)⟩

theorem EncodesWellFormed.addReg (d : Reg) (r : Reg) : EncodesWellFormed.Statement (.addReg d r) :=
  ⟨_, _, rfl, oneSlot_wellFormed (by decide) (fun h => absurd h (by decide)) (by decide) (fieldOfReg_le d) (fieldOfReg_le r)⟩

theorem EncodesWellFormed.subImm (d : Reg) (m : Imm) : EncodesWellFormed.Statement (.subImm d m) :=
  ⟨_, _, rfl, oneSlot_wellFormed (by decide) (fun h => absurd h (by decide)) (by decide) (fieldOfReg_le d) (Nat.zero_le 10)⟩

theorem EncodesWellFormed.subReg (d : Reg) (r : Reg) : EncodesWellFormed.Statement (.subReg d r) :=
  ⟨_, _, rfl, oneSlot_wellFormed (by decide) (fun h => absurd h (by decide)) (by decide) (fieldOfReg_le d) (fieldOfReg_le r)⟩

theorem EncodesWellFormed.mulImm (d : Reg) (m : Imm) : EncodesWellFormed.Statement (.mulImm d m) :=
  ⟨_, _, rfl, oneSlot_wellFormed (by decide) (fun h => absurd h (by decide)) (by decide) (fieldOfReg_le d) (Nat.zero_le 10)⟩

theorem EncodesWellFormed.mulReg (d : Reg) (r : Reg) : EncodesWellFormed.Statement (.mulReg d r) :=
  ⟨_, _, rfl, oneSlot_wellFormed (by decide) (fun h => absurd h (by decide)) (by decide) (fieldOfReg_le d) (fieldOfReg_le r)⟩

theorem EncodesWellFormed.divImm (d : Reg) (m : Imm) : EncodesWellFormed.Statement (.divImm d m) :=
  ⟨_, _, rfl, oneSlot_wellFormed (by decide) (fun h => absurd h (by decide)) (by decide) (fieldOfReg_le d) (Nat.zero_le 10)⟩

theorem EncodesWellFormed.divReg (d : Reg) (r : Reg) : EncodesWellFormed.Statement (.divReg d r) :=
  ⟨_, _, rfl, oneSlot_wellFormed (by decide) (fun h => absurd h (by decide)) (by decide) (fieldOfReg_le d) (fieldOfReg_le r)⟩

theorem EncodesWellFormed.orImm (d : Reg) (m : Imm) : EncodesWellFormed.Statement (.orImm d m) :=
  ⟨_, _, rfl, oneSlot_wellFormed (by decide) (fun h => absurd h (by decide)) (by decide) (fieldOfReg_le d) (Nat.zero_le 10)⟩

theorem EncodesWellFormed.orReg (d : Reg) (r : Reg) : EncodesWellFormed.Statement (.orReg d r) :=
  ⟨_, _, rfl, oneSlot_wellFormed (by decide) (fun h => absurd h (by decide)) (by decide) (fieldOfReg_le d) (fieldOfReg_le r)⟩

theorem EncodesWellFormed.andImm (d : Reg) (m : Imm) : EncodesWellFormed.Statement (.andImm d m) :=
  ⟨_, _, rfl, oneSlot_wellFormed (by decide) (fun h => absurd h (by decide)) (by decide) (fieldOfReg_le d) (Nat.zero_le 10)⟩

theorem EncodesWellFormed.andReg (d : Reg) (r : Reg) : EncodesWellFormed.Statement (.andReg d r) :=
  ⟨_, _, rfl, oneSlot_wellFormed (by decide) (fun h => absurd h (by decide)) (by decide) (fieldOfReg_le d) (fieldOfReg_le r)⟩

theorem EncodesWellFormed.lshImm (d : Reg) (m : Imm) : EncodesWellFormed.Statement (.lshImm d m) :=
  ⟨_, _, rfl, oneSlot_wellFormed (by decide) (fun h => absurd h (by decide)) (by decide) (fieldOfReg_le d) (Nat.zero_le 10)⟩

theorem EncodesWellFormed.lshReg (d : Reg) (r : Reg) : EncodesWellFormed.Statement (.lshReg d r) :=
  ⟨_, _, rfl, oneSlot_wellFormed (by decide) (fun h => absurd h (by decide)) (by decide) (fieldOfReg_le d) (fieldOfReg_le r)⟩

theorem EncodesWellFormed.rshImm (d : Reg) (m : Imm) : EncodesWellFormed.Statement (.rshImm d m) :=
  ⟨_, _, rfl, oneSlot_wellFormed (by decide) (fun h => absurd h (by decide)) (by decide) (fieldOfReg_le d) (Nat.zero_le 10)⟩

theorem EncodesWellFormed.rshReg (d : Reg) (r : Reg) : EncodesWellFormed.Statement (.rshReg d r) :=
  ⟨_, _, rfl, oneSlot_wellFormed (by decide) (fun h => absurd h (by decide)) (by decide) (fieldOfReg_le d) (fieldOfReg_le r)⟩

theorem EncodesWellFormed.arshImm (d : Reg) (m : Imm) : EncodesWellFormed.Statement (.arshImm d m) :=
  ⟨_, _, rfl, oneSlot_wellFormed (by decide) (fun h => absurd h (by decide)) (by decide) (fieldOfReg_le d) (Nat.zero_le 10)⟩

theorem EncodesWellFormed.arshReg (d : Reg) (r : Reg) : EncodesWellFormed.Statement (.arshReg d r) :=
  ⟨_, _, rfl, oneSlot_wellFormed (by decide) (fun h => absurd h (by decide)) (by decide) (fieldOfReg_le d) (fieldOfReg_le r)⟩

theorem EncodesWellFormed.negImm (d : Reg) : EncodesWellFormed.Statement (.negImm d) :=
  ⟨_, _, rfl, oneSlot_wellFormed (by decide) (fun h => absurd h (by decide)) (by decide) (fieldOfReg_le d) (Nat.zero_le 10)⟩

theorem EncodesWellFormed.negReg (d : Reg) : EncodesWellFormed.Statement (.negReg d) :=
  ⟨_, _, rfl, oneSlot_wellFormed (by decide) (fun h => absurd h (by decide)) (by decide) (fieldOfReg_le d) (Nat.zero_le 10)⟩

theorem EncodesWellFormed.modImm (d : Reg) (m : Imm) : EncodesWellFormed.Statement (.modImm d m) :=
  ⟨_, _, rfl, oneSlot_wellFormed (by decide) (fun h => absurd h (by decide)) (by decide) (fieldOfReg_le d) (Nat.zero_le 10)⟩

theorem EncodesWellFormed.modReg (d : Reg) (r : Reg) : EncodesWellFormed.Statement (.modReg d r) :=
  ⟨_, _, rfl, oneSlot_wellFormed (by decide) (fun h => absurd h (by decide)) (by decide) (fieldOfReg_le d) (fieldOfReg_le r)⟩

theorem EncodesWellFormed.xorImm (d : Reg) (m : Imm) : EncodesWellFormed.Statement (.xorImm d m) :=
  ⟨_, _, rfl, oneSlot_wellFormed (by decide) (fun h => absurd h (by decide)) (by decide) (fieldOfReg_le d) (Nat.zero_le 10)⟩

theorem EncodesWellFormed.xorReg (d : Reg) (r : Reg) : EncodesWellFormed.Statement (.xorReg d r) :=
  ⟨_, _, rfl, oneSlot_wellFormed (by decide) (fun h => absurd h (by decide)) (by decide) (fieldOfReg_le d) (fieldOfReg_le r)⟩

theorem EncodesWellFormed.le16 (d : Reg) : EncodesWellFormed.Statement (.le16 d) :=
  ⟨_, _, rfl, oneSlot_wellFormed (by decide) (by decide) (by decide) (fieldOfReg_le d) (Nat.zero_le 10)⟩

theorem EncodesWellFormed.le32 (d : Reg) : EncodesWellFormed.Statement (.le32 d) :=
  ⟨_, _, rfl, oneSlot_wellFormed (by decide) (by decide) (by decide) (fieldOfReg_le d) (Nat.zero_le 10)⟩

theorem EncodesWellFormed.le64 (d : Reg) : EncodesWellFormed.Statement (.le64 d) :=
  ⟨_, _, rfl, oneSlot_wellFormed (by decide) (by decide) (by decide) (fieldOfReg_le d) (Nat.zero_le 10)⟩

theorem EncodesWellFormed.be16 (d : Reg) : EncodesWellFormed.Statement (.be16 d) :=
  ⟨_, _, rfl, oneSlot_wellFormed (by decide) (by decide) (by decide) (fieldOfReg_le d) (Nat.zero_le 10)⟩

theorem EncodesWellFormed.be32 (d : Reg) : EncodesWellFormed.Statement (.be32 d) :=
  ⟨_, _, rfl, oneSlot_wellFormed (by decide) (by decide) (by decide) (fieldOfReg_le d) (Nat.zero_le 10)⟩

theorem EncodesWellFormed.be64 (d : Reg) : EncodesWellFormed.Statement (.be64 d) :=
  ⟨_, _, rfl, oneSlot_wellFormed (by decide) (by decide) (by decide) (fieldOfReg_le d) (Nat.zero_le 10)⟩

theorem EncodesWellFormed.lddw (d : Reg) (lo : Imm) (hi : Imm) : EncodesWellFormed.Statement (.lddw d lo hi) :=
  ⟨_, _, rfl, (by decide : (0x18 : Byte) ∈ recognisedOpcodes),
    fun h => absurd h (by simp [slotOf]), fun _ => rfl, fieldOfReg_le d, Nat.zero_le 10⟩

theorem EncodesWellFormed.ldabsb (d : Reg) (m : Imm) : EncodesWellFormed.Statement (.ldabsb d m) :=
  ⟨_, _, rfl, oneSlot_wellFormed (by decide) (fun h => absurd h (by decide)) (by decide) (fieldOfReg_le d) (Nat.zero_le 10)⟩

theorem EncodesWellFormed.ldabsh (d : Reg) (m : Imm) : EncodesWellFormed.Statement (.ldabsh d m) :=
  ⟨_, _, rfl, oneSlot_wellFormed (by decide) (fun h => absurd h (by decide)) (by decide) (fieldOfReg_le d) (Nat.zero_le 10)⟩

theorem EncodesWellFormed.ldabsw (d : Reg) (m : Imm) : EncodesWellFormed.Statement (.ldabsw d m) :=
  ⟨_, _, rfl, oneSlot_wellFormed (by decide) (fun h => absurd h (by decide)) (by decide) (fieldOfReg_le d) (Nat.zero_le 10)⟩

theorem EncodesWellFormed.ldabsdw (d : Reg) (m : Imm) : EncodesWellFormed.Statement (.ldabsdw d m) :=
  ⟨_, _, rfl, oneSlot_wellFormed (by decide) (fun h => absurd h (by decide)) (by decide) (fieldOfReg_le d) (Nat.zero_le 10)⟩

theorem EncodesWellFormed.ldindb (d : Reg) (r : Reg) (m : Imm) : EncodesWellFormed.Statement (.ldindb d r m) :=
  ⟨_, _, rfl, oneSlot_wellFormed (by decide) (fun h => absurd h (by decide)) (by decide) (fieldOfReg_le d) (fieldOfReg_le r)⟩

theorem EncodesWellFormed.ldindh (d : Reg) (r : Reg) (m : Imm) : EncodesWellFormed.Statement (.ldindh d r m) :=
  ⟨_, _, rfl, oneSlot_wellFormed (by decide) (fun h => absurd h (by decide)) (by decide) (fieldOfReg_le d) (fieldOfReg_le r)⟩

theorem EncodesWellFormed.ldindw (d : Reg) (r : Reg) (m : Imm) : EncodesWellFormed.Statement (.ldindw d r m) :=
  ⟨_, _, rfl, oneSlot_wellFormed (by decide) (fun h => absurd h (by decide)) (by decide) (fieldOfReg_le d) (fieldOfReg_le r)⟩

theorem EncodesWellFormed.ldinddw (d : Reg) (r : Reg) (m : Imm) : EncodesWellFormed.Statement (.ldinddw d r m) :=
  ⟨_, _, rfl, oneSlot_wellFormed (by decide) (fun h => absurd h (by decide)) (by decide) (fieldOfReg_le d) (fieldOfReg_le r)⟩

theorem EncodesWellFormed.ldxb (d : Reg) (r : Reg) (o : Off) : EncodesWellFormed.Statement (.ldxb d r o) :=
  ⟨_, _, rfl, oneSlot_wellFormed (by decide) (fun h => absurd h (by decide)) (by decide) (fieldOfReg_le d) (fieldOfReg_le r)⟩

theorem EncodesWellFormed.ldxh (d : Reg) (r : Reg) (o : Off) : EncodesWellFormed.Statement (.ldxh d r o) :=
  ⟨_, _, rfl, oneSlot_wellFormed (by decide) (fun h => absurd h (by decide)) (by decide) (fieldOfReg_le d) (fieldOfReg_le r)⟩

theorem EncodesWellFormed.ldxw (d : Reg) (r : Reg) (o : Off) : EncodesWellFormed.Statement (.ldxw d r o) :=
  ⟨_, _, rfl, oneSlot_wellFormed (by decide) (fun h => absurd h (by decide)) (by decide) (fieldOfReg_le d) (fieldOfReg_le r)⟩

theorem EncodesWellFormed.ldxdw (d : Reg) (r : Reg) (o : Off) : EncodesWellFormed.Statement (.ldxdw d r o) :=
  ⟨_, _, rfl, oneSlot_wellFormed (by decide) (fun h => absurd h (by decide)) (by decide) (fieldOfReg_le d) (fieldOfReg_le r)⟩

theorem EncodesWellFormed.stb (d : Reg) (o : Off) (m : Imm) : EncodesWellFormed.Statement (.stb d o m) :=
  ⟨_, _, rfl, oneSlot_wellFormed (by decide) (fun h => absurd h (by decide)) (by decide) (fieldOfReg_le d) (Nat.zero_le 10)⟩

theorem EncodesWellFormed.sth (d : Reg) (o : Off) (m : Imm) : EncodesWellFormed.Statement (.sth d o m) :=
  ⟨_, _, rfl, oneSlot_wellFormed (by decide) (fun h => absurd h (by decide)) (by decide) (fieldOfReg_le d) (Nat.zero_le 10)⟩

theorem EncodesWellFormed.stw (d : Reg) (o : Off) (m : Imm) : EncodesWellFormed.Statement (.stw d o m) :=
  ⟨_, _, rfl, oneSlot_wellFormed (by decide) (fun h => absurd h (by decide)) (by decide) (fieldOfReg_le d) (Nat.zero_le 10)⟩

theorem EncodesWellFormed.stdw (d : Reg) (o : Off) (m : Imm) : EncodesWellFormed.Statement (.stdw d o m) :=
  ⟨_, _, rfl, oneSlot_wellFormed (by decide) (fun h => absurd h (by decide)) (by decide) (fieldOfReg_le d) (Nat.zero_le 10)⟩

theorem EncodesWellFormed.stxb (d : Reg) (r : Reg) (o : Off) : EncodesWellFormed.Statement (.stxb d r o) :=
  ⟨_, _, rfl, oneSlot_wellFormed (by decide) (fun h => absurd h (by decide)) (by decide) (fieldOfReg_le d) (fieldOfReg_le r)⟩

theorem EncodesWellFormed.stxh (d : Reg) (r : Reg) (o : Off) : EncodesWellFormed.Statement (.stxh d r o) :=
  ⟨_, _, rfl, oneSlot_wellFormed (by decide) (fun h => absurd h (by decide)) (by decide) (fieldOfReg_le d) (fieldOfReg_le r)⟩

theorem EncodesWellFormed.stxw (d : Reg) (r : Reg) (o : Off) : EncodesWellFormed.Statement (.stxw d r o) :=
  ⟨_, _, rfl, oneSlot_wellFormed (by decide) (fun h => absurd h (by decide)) (by decide) (fieldOfReg_le d) (fieldOfReg_le r)⟩

theorem EncodesWellFormed.stxdw (d : Reg) (r : Reg) (o : Off) : EncodesWellFormed.Statement (.stxdw d r o) :=
  ⟨_, _, rfl, oneSlot_wellFormed (by decide) (fun h => absurd h (by decide)) (by decide) (fieldOfReg_le d) (fieldOfReg_le r)⟩

theorem EncodesWellFormed.ja (o : Off) : EncodesWellFormed.Statement (.ja o) :=
  ⟨_, _, rfl, oneSlot_wellFormed (by decide) (fun h => absurd h (by decide)) (by decide) (Nat.zero_le 10) (Nat.zero_le 10)⟩

theorem EncodesWellFormed.jeqImm (d : Reg) (o : Off) (m : Imm) : EncodesWellFormed.Statement (.jeqImm d o m) :=
  ⟨_, _, rfl, oneSlot_wellFormed (by decide) (fun h => absurd h (by decide)) (by decide) (fieldOfReg_le d) (Nat.zero_le 10)⟩

theorem EncodesWellFormed.jeqReg (d : Reg) (r : Reg) (o : Off) : EncodesWellFormed.Statement (.jeqReg d r o) :=
  ⟨_, _, rfl, oneSlot_wellFormed (by decide) (fun h => absurd h (by decide)) (by decide) (fieldOfReg_le d) (fieldOfReg_le r)⟩

theorem EncodesWellFormed.jgtImm (d : Reg) (o : Off) (m : Imm) : EncodesWellFormed.Statement (.jgtImm d o m) :=
  ⟨_, _, rfl, oneSlot_wellFormed (by decide) (fun h => absurd h (by decide)) (by decide) (fieldOfReg_le d) (Nat.zero_le 10)⟩

theorem EncodesWellFormed.jgtReg (d : Reg) (r : Reg) (o : Off) : EncodesWellFormed.Statement (.jgtReg d r o) :=
  ⟨_, _, rfl, oneSlot_wellFormed (by decide) (fun h => absurd h (by decide)) (by decide) (fieldOfReg_le d) (fieldOfReg_le r)⟩

theorem EncodesWellFormed.jgeImm (d : Reg) (o : Off) (m : Imm) : EncodesWellFormed.Statement (.jgeImm d o m) :=
  ⟨_, _, rfl, oneSlot_wellFormed (by decide) (fun h => absurd h (by decide)) (by decide) (fieldOfReg_le d) (Nat.zero_le 10)⟩

theorem EncodesWellFormed.jgeReg (d : Reg) (r : Reg) (o : Off) : EncodesWellFormed.Statement (.jgeReg d r o) :=
  ⟨_, _, rfl, oneSlot_wellFormed (by decide) (fun h => absurd h (by decide)) (by decide) (fieldOfReg_le d) (fieldOfReg_le r)⟩

theorem EncodesWellFormed.jltImm (d : Reg) (o : Off) (m : Imm) : EncodesWellFormed.Statement (.jltImm d o m) :=
  ⟨_, _, rfl, oneSlot_wellFormed (by decide) (fun h => absurd h (by decide)) (by decide) (fieldOfReg_le d) (Nat.zero_le 10)⟩

theorem EncodesWellFormed.jltReg (d : Reg) (r : Reg) (o : Off) : EncodesWellFormed.Statement (.jltReg d r o) :=
  ⟨_, _, rfl, oneSlot_wellFormed (by decide) (fun h => absurd h (by decide)) (by decide) (fieldOfReg_le d) (fieldOfReg_le r)⟩

theorem EncodesWellFormed.jleImm (d : Reg) (o : Off) (m : Imm) : EncodesWellFormed.Statement (.jleImm d o m) :=
  ⟨_, _, rfl, oneSlot_wellFormed (by decide) (fun h => absurd h (by decide)) (by decide) (fieldOfReg_le d) (Nat.zero_le 10)⟩

theorem EncodesWellFormed.jleReg (d : Reg) (r : Reg) (o : Off) : EncodesWellFormed.Statement (.jleReg d r o) :=
  ⟨_, _, rfl, oneSlot_wellFormed (by decide) (fun h => absurd h (by decide)) (by decide) (fieldOfReg_le d) (fieldOfReg_le r)⟩

theorem EncodesWellFormed.jsetImm (d : Reg) (o : Off) (m : Imm) : EncodesWellFormed.Statement (.jsetImm d o m) :=
  ⟨_, _, rfl, oneSlot_wellFormed (by decide) (fun h => absurd h (by decide)) (by decide) (fieldOfReg_le d) (Nat.zero_le 10)⟩

theorem EncodesWellFormed.jsetReg (d : Reg) (r : Reg) (o : Off) : EncodesWellFormed.Statement (.jsetReg d r o) :=
  ⟨_, _, rfl, oneSlot_wellFormed (by decide) (fun h => absurd h (by decide)) (by decide) (fieldOfReg_le d) (fieldOfReg_le r)⟩

theorem EncodesWellFormed.jneImm (d : Reg) (o : Off) (m : Imm) : EncodesWellFormed.Statement (.jneImm d o m) :=
  ⟨_, _, rfl, oneSlot_wellFormed (by decide) (fun h => absurd h (by decide)) (by decide) (fieldOfReg_le d) (Nat.zero_le 10)⟩

theorem EncodesWellFormed.jneReg (d : Reg) (r : Reg) (o : Off) : EncodesWellFormed.Statement (.jneReg d r o) :=
  ⟨_, _, rfl, oneSlot_wellFormed (by decide) (fun h => absurd h (by decide)) (by decide) (fieldOfReg_le d) (fieldOfReg_le r)⟩

theorem EncodesWellFormed.jsgtImm (d : Reg) (o : Off) (m : Imm) : EncodesWellFormed.Statement (.jsgtImm d o m) :=
  ⟨_, _, rfl, oneSlot_wellFormed (by decide) (fun h => absurd h (by decide)) (by decide) (fieldOfReg_le d) (Nat.zero_le 10)⟩

theorem EncodesWellFormed.jsgtReg (d : Reg) (r : Reg) (o : Off) : EncodesWellFormed.Statement (.jsgtReg d r o) :=
  ⟨_, _, rfl, oneSlot_wellFormed (by decide) (fun h => absurd h (by decide)) (by decide) (fieldOfReg_le d) (fieldOfReg_le r)⟩

theorem EncodesWellFormed.jsgeImm (d : Reg) (o : Off) (m : Imm) : EncodesWellFormed.Statement (.jsgeImm d o m) :=
  ⟨_, _, rfl, oneSlot_wellFormed (by decide) (fun h => absurd h (by decide)) (by decide) (fieldOfReg_le d) (Nat.zero_le 10)⟩

theorem EncodesWellFormed.jsgeReg (d : Reg) (r : Reg) (o : Off) : EncodesWellFormed.Statement (.jsgeReg d r o) :=
  ⟨_, _, rfl, oneSlot_wellFormed (by decide) (fun h => absurd h (by decide)) (by decide) (fieldOfReg_le d) (fieldOfReg_le r)⟩

theorem EncodesWellFormed.jsltImm (d : Reg) (o : Off) (m : Imm) : EncodesWellFormed.Statement (.jsltImm d o m) :=
  ⟨_, _, rfl, oneSlot_wellFormed (by decide) (fun h => absurd h (by decide)) (by decide) (fieldOfReg_le d) (Nat.zero_le 10)⟩

theorem EncodesWellFormed.jsltReg (d : Reg) (r : Reg) (o : Off) : EncodesWellFormed.Statement (.jsltReg d r o) :=
  ⟨_, _, rfl, oneSlot_wellFormed (by decide) (fun h => absurd h (by decide)) (by decide) (fieldOfReg_le d) (fieldOfReg_le r)⟩

theorem EncodesWellFormed.jsleImm (d : Reg) (o : Off) (m : Imm) : EncodesWellFormed.Statement (.jsleImm d o m) :=
  ⟨_, _, rfl, oneSlot_wellFormed (by decide) (fun h => absurd h (by decide)) (by decide) (fieldOfReg_le d) (Nat.zero_le 10)⟩

theorem EncodesWellFormed.jsleReg (d : Reg) (r : Reg) (o : Off) : EncodesWellFormed.Statement (.jsleReg d r o) :=
  ⟨_, _, rfl, oneSlot_wellFormed (by decide) (fun h => absurd h (by decide)) (by decide) (fieldOfReg_le d) (fieldOfReg_le r)⟩

theorem EncodesWellFormed.call (m : Imm) : EncodesWellFormed.Statement (.call m) :=
  ⟨_, _, rfl, oneSlot_wellFormed (by decide) (fun h => absurd h (by decide)) (by decide) (Nat.zero_le 10) (Nat.zero_le 10)⟩

theorem EncodesWellFormed.exit : EncodesWellFormed.Statement .exit :=
  ⟨_, _, rfl, oneSlot_wellFormed (by decide) (fun h => absurd h (by decide)) (by decide) (Nat.zero_le 10) (Nat.zero_le 10)⟩

end Sys2Proof.Laws
end

