-- ==== Sys2Proof/Tests/Slice0.lean ====
section
/-!
SUPPORT. Tests. Bytes, start states and expected results are the spec's (spec/95_test_vectors.md: E2 to E5, V1 to V14, and the
rules' own examples); then, for each statement with hypotheses, concrete states that meet them (`test_meets_…`).
-/

open Sys2Proof Sys2Proof.Machine

namespace Sys2Proof.Tests

/-- A state in the middle of a run: the bytes of the next instruction at slot `pc`, zero slots before it, the registers and
bytes of memory listed, everything else as after reset. -/
def start (pc : Nat) (bytes : List Byte) (regs : List (Reg × Word)) (mem : List (Nat × List Byte)) : State :=
  { regs.foldl (fun s p => s.writeReg p.1 p.2) State.reset with
    prog := List.replicate pc zeroSlot ++ splitSlots bytes
    pc := pc
    mem := mem.foldl (fun m p => (p.2.foldl (fun q b => (q.1.writeByte q.2 b, q.2 + 1)) (m, p.1)).1) [] }

/-- What `f` reads in the state after one step. -/
def after {α : Type} (s : State) (f : State → α) : Option α :=
  match step s with
  | .next t => some (f t)
  | .fault _ => none
  | .refused _ => none

/-- `n` bytes of memory from address `a` on. -/
def bytesAt (s : State) (a n : Nat) : List Byte := (List.range n).map fun j => s.mem.readByte (a + j)

/-! ### Ill-formed slots are refused, one for each check (R74, R75), and a misaligned buffer (R52) -/

theorem test_wf_good : (slotOf 0xb7 10 10 0 0).WellFormed none := by decide
theorem test_wf_unknown_opcode :
    ¬(slotOf 0xee 0 0 0 0).opcodeKnown ∧ decode (slotOf 0xee 15 15 0 0) none = .error (.unknownOpcode 0xee) := by decide
theorem test_wf_bad_selector :
    ¬(slotOf 0xd4 0 0 0 8).selectorOk ∧ decode (slotOf 0xd4 13 0 0 8) none = .error (.badSelector 0xd4) := by decide
theorem test_wf_no_second_slot :
    ¬(slotOf 0x18 0 0 0 5).secondSlotOk none ∧ decode (slotOf 0x18 12 0 0 5) none = .error (.noSecondSlot 0x18) := by decide
theorem test_wf_bad_dest : ¬(slotOf 0x0f 12 13 0 0).destOk ∧ decode (slotOf 0x0f 12 13 0 0) none = .error (.badDest 12) := by
  decide
theorem test_wf_bad_src : ¬(slotOf 0xb7 1 15 0 1).srcOk ∧ decode (slotOf 0xb7 1 15 0 1) none = .error (.badSrc 15) := by decide
theorem test_wf_misaligned_buffer :
    ¬BufferWellFormed [0xb7, 1, 0, 0, 5, 0, 0] ∧ decodeProgram [0xb7, 1, 0, 0, 5, 0, 0] = .error .misalignedLength := by decide

/-! ### Decoding and one step, per instruction -/

theorem test_decode_movImm :
    decodeBytes [0xb7, 0x01, 0x00, 0x00, 0xff, 0xff, 0xff, 0xff] = some (.movImm 1 (-1)) := by decide
theorem test_step_movImm :
    after (start 0 [0xb7, 0x01, 0x00, 0x00, 0xff, 0xff, 0xff, 0xff] [(1, 0x1234)] [])
      (fun t => (t.readReg 1, t.pc, t.status)) = some (0xffffffffffffffff, 1, .running) := by decide
theorem test_decode_movReg : decodeBytes [0xbf, 0x21, 0x00, 0x00, 0x00, 0x00, 0x00, 0x00] = some (.movReg 1 2) := by decide
theorem test_step_movReg :
    after (start 0 [0xbf, 0x21, 0x00, 0x00, 0x00, 0x00, 0x00, 0x00] [(1, 0x5), (2, 0x8000000000000001)] [])
      (fun t => (t.readReg 1, t.pc, t.status)) = some (0x8000000000000001, 1, .running) := by decide
theorem test_decode_addImm : decodeBytes [0x07, 0x01, 0x00, 0x00, 0x01, 0x00, 0x00, 0x00] = some (.addImm 1 1) := by decide
theorem test_step_addImm :
    after (start 0 [0x07, 0x01, 0x00, 0x00, 0x01, 0x00, 0x00, 0x00] [(1, 0x7fffffffffffffff)] [])
      (fun t => (t.readReg 1, t.pc, t.status)) = some (0x8000000000000000, 1, .running) := by decide
theorem test_decode_addReg : decodeBytes [0x0f, 0x43, 0x00, 0x00, 0x00, 0x00, 0x00, 0x00] = some (.addReg 3 4) := by decide
theorem test_step_addReg :
    after (start 0 [0x0f, 0x21, 0x00, 0x00, 0x00, 0x00, 0x00, 0x00] [(1, 0xffffffffffffffff), (2, 0x1)] [])
      (fun t => (t.readReg 1, t.pc, t.status)) = some (0x0, 1, .running) := by decide
theorem test_decode_subImm : decodeBytes [0x17, 0x01, 0x00, 0x00, 0x01, 0x00, 0x00, 0x00] = some (.subImm 1 1) := by decide
theorem test_step_subImm :
    after (start 0 [0x17, 0x01, 0x00, 0x00, 0x01, 0x00, 0x00, 0x00] [(1, 0x8000000000000000)] [])
      (fun t => (t.readReg 1, t.pc, t.status)) = some (0x7fffffffffffffff, 1, .running) := by decide
theorem test_decode_subReg : decodeBytes [0x1f, 0x11, 0x00, 0x00, 0x00, 0x00, 0x00, 0x00] = some (.subReg 1 1) := by decide
theorem test_step_subReg :
    after (start 0 [0x1f, 0x21, 0x00, 0x00, 0x00, 0x00, 0x00, 0x00] [(1, 0x3), (2, 0x5)] [])
      (fun t => (t.readReg 1, t.pc, t.status)) = some (0xfffffffffffffffe, 1, .running) := by decide
theorem test_decode_mulImm :
    decodeBytes [0x27, 0x01, 0x00, 0x00, 0xff, 0xff, 0xff, 0xff] = some (.mulImm 1 (-1)) := by decide
theorem test_step_mulImm :
    after (start 0 [0x27, 0x01, 0x00, 0x00, 0xff, 0xff, 0xff, 0xff] [(1, 0x8000000000000000)] [])
      (fun t => (t.readReg 1, t.pc, t.status)) = some (0x8000000000000000, 1, .running) := by decide
theorem test_decode_mulReg : decodeBytes [0x2f, 0x21, 0x00, 0x00, 0x00, 0x00, 0x00, 0x00] = some (.mulReg 1 2) := by decide
theorem test_step_mulReg :
    after (start 0 [0x2f, 0x21, 0x00, 0x00, 0x00, 0x00, 0x00, 0x00]
      [(1, 0x123456789abcdef0), (2, 0xfedcba987654321)] [])
      (fun t => (t.readReg 1, t.pc, t.status)) = some (0x2236d88fe5618cf0, 1, .running) := by decide
theorem test_decode_divImm : decodeBytes [0x37, 0x01, 0x00, 0x00, 0x00, 0x00, 0x00, 0x00] = some (.divImm 1 0) := by decide
theorem test_step_divImm :
    after (start 0 [0x37, 0x01, 0x00, 0x00, 0x02, 0x00, 0x00, 0x00] [(1, 0xfffffffffffffff9)] [])
      (fun t => (t.readReg 1, t.pc, t.status)) = some (0xfffffffffffffffd, 1, .running) := by decide
theorem test_decode_divReg : decodeBytes [0x3f, 0x21, 0x00, 0x00, 0x00, 0x00, 0x00, 0x00] = some (.divReg 1 2) := by decide
theorem test_step_divReg :
    after (start 0 [0x3f, 0x21, 0x00, 0x00, 0x00, 0x00, 0x00, 0x00] [(1, 0xffffffffffffffff), (2, 0x2)] [])
      (fun t => (t.readReg 1, t.pc, t.status)) = some (0x0, 1, .running) := by decide
theorem test_decode_orImm :
    decodeBytes [0x47, 0x01, 0x00, 0x00, 0x00, 0xff, 0xff, 0xff] = some (.orImm 1 (-256)) := by decide
theorem test_step_orImm :
    after (start 0 [0x47, 0x01, 0x00, 0x00, 0x00, 0xff, 0xff, 0xff] [(1, 0x12)] [])
      (fun t => (t.readReg 1, t.pc, t.status)) = some (0xffffffffffffff12, 1, .running) := by decide
theorem test_decode_orReg : decodeBytes [0x4f, 0x21, 0x00, 0x00, 0x00, 0x00, 0x00, 0x00] = some (.orReg 1 2) := by decide
theorem test_step_orReg :
    after (start 0 [0x4f, 0x21, 0x00, 0x00, 0x00, 0x00, 0x00, 0x00] [(1, 0xf0f0), (2, 0xf0f)] [])
      (fun t => (t.readReg 1, t.pc, t.status)) = some (0xffff, 1, .running) := by decide
theorem test_decode_andImm :
    decodeBytes [0x57, 0x01, 0x00, 0x00, 0xff, 0xff, 0xff, 0x7f] = some (.andImm 1 2147483647) := by decide
theorem test_step_andImm :
    after (start 0 [0x57, 0x01, 0x00, 0x00, 0xff, 0xff, 0xff, 0x7f] [(1, 0xffffffffffffffff)] [])
      (fun t => (t.readReg 1, t.pc, t.status)) = some (0x7fffffff, 1, .running) := by decide
theorem test_decode_andReg : decodeBytes [0x5f, 0x21, 0x00, 0x00, 0x00, 0x00, 0x00, 0x00] = some (.andReg 1 2) := by decide
theorem test_step_andReg :
    after (start 0 [0x5f, 0x21, 0x00, 0x00, 0x00, 0x00, 0x00, 0x00]
      [(1, 0xff00ff00ff00ff00), (2, 0xff00ff00ff00ff0)] [])
      (fun t => (t.readReg 1, t.pc, t.status)) = some (0xf000f000f000f00, 1, .running) := by decide
theorem test_decode_lshImm : decodeBytes [0x67, 0x01, 0x00, 0x00, 0x04, 0x00, 0x00, 0x00] = some (.lshImm 1 4) := by decide
theorem test_step_lshImm :
    after (start 0 [0x67, 0x01, 0x00, 0x00, 0x41, 0x00, 0x00, 0x00] [(1, 0x1)] [])
      (fun t => (t.readReg 1, t.pc, t.status)) = some (0x2, 1, .running) := by decide
theorem test_decode_lshReg : decodeBytes [0x6f, 0x21, 0x00, 0x00, 0x00, 0x00, 0x00, 0x00] = some (.lshReg 1 2) := by decide
theorem test_step_lshReg :
    after (start 0 [0x6f, 0x21, 0x00, 0x00, 0x00, 0x00, 0x00, 0x00] [(1, 0x1), (2, 0x100000008)] [])
      (fun t => (t.readReg 1, t.pc, t.status)) = some (0x100, 1, .running) := by decide
theorem test_decode_rshImm : decodeBytes [0x77, 0x01, 0x00, 0x00, 0x04, 0x00, 0x00, 0x00] = some (.rshImm 1 4) := by decide
theorem test_step_rshImm :
    after (start 0 [0x77, 0x01, 0x00, 0x00, 0x04, 0x00, 0x00, 0x00] [(1, 0x8000000000000000)] [])
      (fun t => (t.readReg 1, t.pc, t.status)) = some (0x800000000000000, 1, .running) := by decide
theorem test_decode_rshReg : decodeBytes [0x7f, 0x21, 0x00, 0x00, 0x00, 0x00, 0x00, 0x00] = some (.rshReg 1 2) := by decide
theorem test_step_rshReg :
    after (start 0 [0x7f, 0x11, 0x00, 0x00, 0x00, 0x00, 0x00, 0x00] [(1, 0x41)] [])
      (fun t => (t.readReg 1, t.pc, t.status)) = some (0x20, 1, .running) := by decide
theorem test_decode_arshImm : decodeBytes [0xc7, 0x01, 0x00, 0x00, 0x04, 0x00, 0x00, 0x00] = some (.arshImm 1 4) := by decide
theorem test_step_arshImm :
    after (start 0 [0xc7, 0x01, 0x00, 0x00, 0x04, 0x00, 0x00, 0x00] [(1, 0x8000000000000000)] [])
      (fun t => (t.readReg 1, t.pc, t.status)) = some (0xf800000000000000, 1, .running) := by decide
theorem test_decode_arshReg : decodeBytes [0xcf, 0x21, 0x00, 0x00, 0x00, 0x00, 0x00, 0x00] = some (.arshReg 1 2) := by decide
theorem test_step_arshReg :
    after (start 0 [0xcf, 0x21, 0x00, 0x00, 0x00, 0x00, 0x00, 0x00] [(1, 0xfffffffffffffff0), (2, 0x2)] [])
      (fun t => (t.readReg 1, t.pc, t.status)) = some (0xfffffffffffffffc, 1, .running) := by decide
theorem test_decode_negImm : decodeBytes [0x87, 0x01, 0x00, 0x00, 0x00, 0x00, 0x00, 0x00] = some (.negImm 1) := by decide
theorem test_step_negImm :
    after (start 0 [0x87, 0x01, 0x00, 0x00, 0x00, 0x00, 0x00, 0x00] [(1, 0x8000000000000000)] [])
      (fun t => (t.readReg 1, t.pc, t.status)) = some (0x8000000000000000, 1, .running) := by decide
theorem test_decode_negReg : decodeBytes [0x8f, 0x21, 0x00, 0x00, 0x00, 0x00, 0x00, 0x00] = some (.negReg 1) := by decide
theorem test_step_negReg :
    after (start 0 [0x8f, 0x21, 0x00, 0x00, 0x00, 0x00, 0x00, 0x00] [(1, 0x0), (2, 0x5)] [])
      (fun t => (t.readReg 1, t.pc, t.status)) = some (0x0, 1, .running) := by decide
theorem test_decode_modImm : decodeBytes [0x97, 0x01, 0x00, 0x00, 0x02, 0x00, 0x00, 0x00] = some (.modImm 1 2) := by decide
theorem test_step_modImm :
    after (start 0 [0x97, 0x01, 0x00, 0x00, 0x02, 0x00, 0x00, 0x00] [(1, 0xfffffffffffffff9)] [])
      (fun t => (t.readReg 1, t.pc, t.status)) = some (0xffffffffffffffff, 1, .running) := by decide
theorem test_decode_modReg : decodeBytes [0x9f, 0x21, 0x00, 0x00, 0x00, 0x00, 0x00, 0x00] = some (.modReg 1 2) := by decide
theorem test_step_modReg :
    after (start 0 [0x9f, 0x21, 0x00, 0x00, 0x00, 0x00, 0x00, 0x00] [(1, 0xffffffffffffffff), (2, 0x2)] [])
      (fun t => (t.readReg 1, t.pc, t.status)) = some (0xffffffffffffffff, 1, .running) := by decide
theorem test_decode_xorImm :
    decodeBytes [0xa7, 0x01, 0x00, 0x00, 0xff, 0xff, 0xff, 0xff] = some (.xorImm 1 (-1)) := by decide
theorem test_step_xorImm :
    after (start 0 [0xa7, 0x01, 0x00, 0x00, 0xff, 0xff, 0xff, 0xff] [(1, 0xff00ff00ff00ff)] [])
      (fun t => (t.readReg 1, t.pc, t.status)) = some (0xff00ff00ff00ff00, 1, .running) := by decide
theorem test_decode_xorReg : decodeBytes [0xaf, 0x11, 0x00, 0x00, 0x00, 0x00, 0x00, 0x00] = some (.xorReg 1 1) := by decide
theorem test_step_xorReg :
    after (start 0 [0xaf, 0x11, 0x00, 0x00, 0x00, 0x00, 0x00, 0x00] [(1, 0xdeadbeef)] [])
      (fun t => (t.readReg 1, t.pc, t.status)) = some (0x0, 1, .running) := by decide
theorem test_decode_le16 : decodeBytes [0xd4, 0x01, 0x00, 0x00, 0x10, 0x00, 0x00, 0x00] = some (.le16 1) := by decide
theorem test_step_le16 :
    after (start 0 [0xd4, 0x01, 0x00, 0x00, 0x10, 0x00, 0x00, 0x00] [(1, 0x1122334455667788)] [])
      (fun t => (t.readReg 1, t.pc, t.status)) = some (0x7788, 1, .running) := by decide
theorem test_decode_le32 : decodeBytes [0xd4, 0x01, 0x00, 0x00, 0x20, 0x00, 0x00, 0x00] = some (.le32 1) := by decide
theorem test_step_le32 :
    after (start 0 [0xd4, 0x01, 0x00, 0x00, 0x20, 0x00, 0x00, 0x00] [(1, 0xffffffff80000000)] [])
      (fun t => (t.readReg 1, t.pc, t.status)) = some (0x80000000, 1, .running) := by decide
theorem test_decode_le64 : decodeBytes [0xd4, 0x01, 0x00, 0x00, 0x40, 0x00, 0x00, 0x00] = some (.le64 1) := by decide
theorem test_step_le64 :
    after (start 0 [0xd4, 0x01, 0x00, 0x00, 0x40, 0x00, 0x00, 0x00] [(1, 0x1122334455667788)] [])
      (fun t => (t.readReg 1, t.pc, t.status)) = some (0x1122334455667788, 1, .running) := by decide
theorem test_decode_be16 : decodeBytes [0xdc, 0x01, 0x00, 0x00, 0x10, 0x00, 0x00, 0x00] = some (.be16 1) := by decide
theorem test_step_be16 :
    after (start 0 [0xdc, 0x01, 0x00, 0x00, 0x10, 0x00, 0x00, 0x00] [(1, 0x1122334455667788)] [])
      (fun t => (t.readReg 1, t.pc, t.status)) = some (0x8877, 1, .running) := by decide
theorem test_decode_be32 : decodeBytes [0xdc, 0x01, 0x00, 0x00, 0x20, 0x00, 0x00, 0x00] = some (.be32 1) := by decide
theorem test_step_be32 :
    after (start 0 [0xdc, 0x01, 0x00, 0x00, 0x20, 0x00, 0x00, 0x00] [(1, 0xffffffff00000080)] [])
      (fun t => (t.readReg 1, t.pc, t.status)) = some (0x80000000, 1, .running) := by decide
theorem test_decode_be64 : decodeBytes [0xdc, 0x01, 0x00, 0x00, 0x40, 0x00, 0x00, 0x00] = some (.be64 1) := by decide
theorem test_step_be64 :
    after (start 0 [0xdc, 0x01, 0x00, 0x00, 0x40, 0x00, 0x00, 0x00] [(1, 0x1122334455667788)] [])
      (fun t => (t.readReg 1, t.pc, t.status)) = some (0x8877665544332211, 1, .running) := by decide
theorem test_decode_lddw :
    decodeBytes [0x18, 0x01, 0x00, 0x00, 0x88, 0x77, 0x66, 0x55, 0x00, 0x00, 0x00, 0x00, 0x44, 0x33, 0x22, 0x11] =
      some (.lddw 1 0x55667788 0x11223344) := by decide
theorem test_step_lddw :
    after (start 0 [0x18, 0x01, 0x00, 0x00, 0xff, 0xff, 0xff, 0xff, 0x00, 0x00, 0x00, 0x00, 0x00, 0x00, 0x00, 0x00]
      [(1, 0xffffffffffffffff)] [])
      (fun t => (t.readReg 1, t.pc, t.status)) = some (0xffffffff, 2, .running) := by decide
theorem test_decode_ldabsb : decodeBytes [0x30, 0x01, 0x00, 0x00, 0x10, 0x00, 0x00, 0x00] = some (.ldabsb 1 16) := by decide
theorem test_step_ldabsb :
    after (start 0 [0x30, 0x01, 0x00, 0x00, 0xff, 0xff, 0x00, 0x00] [(1, 0x7)] [])
      (fun t => (t.readReg 1, t.pc, t.status)) = some (0x0, 1, .running) := by decide
theorem test_decode_ldabsh : decodeBytes [0x28, 0x01, 0x00, 0x00, 0x10, 0x00, 0x00, 0x00] = some (.ldabsh 1 16) := by decide
theorem test_step_ldabsh :
    after (start 0 [0x28, 0x01, 0x00, 0x00, 0x10, 0x00, 0x00, 0x00]
      [(1, 0xffffffffffffffff)] [(16, [0x88, 0x77, 0x66, 0x55, 0x44, 0x33, 0x22, 0x11])])
      (fun t => (t.readReg 1, t.pc, t.status)) = some (0x7788, 1, .running) := by decide
theorem test_decode_ldabsw : decodeBytes [0x20, 0x01, 0x00, 0x00, 0x10, 0x00, 0x00, 0x00] = some (.ldabsw 1 16) := by decide
theorem test_step_ldabsw :
    after (start 0 [0x20, 0x01, 0x00, 0x00, 0x12, 0x00, 0x00, 0x00] []
      [(16, [0x88, 0x77, 0x66, 0x55, 0x44, 0x33, 0x22, 0x11])])
      (fun t => (t.readReg 1, t.pc, t.status)) = some (0x33445566, 1, .running) := by decide
theorem test_decode_ldabsdw :
    decodeBytes [0x38, 0x01, 0x00, 0x00, 0x10, 0x00, 0x00, 0x00] = some (.ldabsdw 1 16) := by decide
theorem test_step_ldabsdw :
    after (start 0 [0x38, 0x01, 0x00, 0x00, 0x10, 0x00, 0x00, 0x00]
      [(1, 0xffffffffffffffff)] [(16, [0x88, 0x77, 0x66, 0x55, 0x44, 0x33, 0x22, 0x11])])
      (fun t => (t.readReg 1, t.pc, t.status)) = some (0x1122334455667788, 1, .running) := by decide
theorem test_decode_ldindb : decodeBytes [0x50, 0x21, 0x00, 0x00, 0x04, 0x00, 0x00, 0x00] = some (.ldindb 1 2 4) := by decide
theorem test_step_ldindb :
    after (start 0 [0x50, 0x21, 0x00, 0x00, 0x01, 0x00, 0x00, 0x00] [(2, 0x7fffffffffffffff)] [])
      (fun t => (t.readReg 1, t.pc, t.status)) = some (0x0, 0, .faulted (.memoryFault (-9223372036854775808) .byte)) := by decide
theorem test_decode_ldindh : decodeBytes [0x48, 0x21, 0x00, 0x00, 0x04, 0x00, 0x00, 0x00] = some (.ldindh 1 2 4) := by decide
theorem test_step_ldindh :
    after (start 0 [0x48, 0x21, 0x00, 0x00, 0x04, 0x00, 0x00, 0x00]
      [(2, 0xc)] [(16, [0x88, 0x77, 0x66, 0x55, 0x44, 0x33, 0x22, 0x11])])
      (fun t => (t.readReg 1, t.pc, t.status)) = some (0x7788, 1, .running) := by decide
theorem test_decode_ldindw : decodeBytes [0x40, 0x21, 0x00, 0x00, 0x04, 0x00, 0x00, 0x00] = some (.ldindw 1 2 4) := by decide
theorem test_step_ldindw :
    after (start 0 [0x40, 0x11, 0x00, 0x00, 0x00, 0x00, 0x00, 0x00]
      [(1, 0x10)] [(16, [0x88, 0x77, 0x66, 0x55, 0x44, 0x33, 0x22, 0x11])])
      (fun t => (t.readReg 1, t.pc, t.status)) = some (0x55667788, 1, .running) := by decide
theorem test_decode_ldinddw :
    decodeBytes [0x58, 0x21, 0x00, 0x00, 0x04, 0x00, 0x00, 0x00] = some (.ldinddw 1 2 4) := by decide
theorem test_step_ldinddw :
    after (start 0 [0x58, 0x21, 0x00, 0x00, 0x04, 0x00, 0x00, 0x00]
      [(2, 0xc)] [(16, [0x88, 0x77, 0x66, 0x55, 0x44, 0x33, 0x22, 0x11])])
      (fun t => (t.readReg 1, t.pc, t.status)) = some (0x1122334455667788, 1, .running) := by decide
theorem test_decode_ldxb : decodeBytes [0x71, 0x21, 0x08, 0x00, 0x00, 0x00, 0x00, 0x00] = some (.ldxb 1 2 8) := by decide
theorem test_step_ldxb :
    after (start 0 [0x71, 0x21, 0x00, 0x00, 0x00, 0x00, 0x00, 0x00] [(2, 0x13)] [(19, [0xff])])
      (fun t => (t.readReg 1, t.pc, t.status)) = some (0xff, 1, .running) := by decide
theorem test_decode_ldxh : decodeBytes [0x69, 0x21, 0x08, 0x00, 0x00, 0x00, 0x00, 0x00] = some (.ldxh 1 2 8) := by decide
theorem test_step_ldxh :
    after (start 0 [0x69, 0x21, 0xfe, 0xff, 0x00, 0x00, 0x00, 0x00]
      [(2, 0x14)] [(16, [0x88, 0x77, 0x66, 0x55, 0x44, 0x33, 0x22, 0x11])])
      (fun t => (t.readReg 1, t.pc, t.status)) = some (0x5566, 1, .running) := by decide
theorem test_decode_ldxw : decodeBytes [0x61, 0x12, 0x00, 0x00, 0x00, 0x00, 0x00, 0x00] = some (.ldxw 2 1 0) := by decide
theorem test_step_ldxw :
    after (start 0 [0x61, 0x21, 0x00, 0x80, 0x00, 0x00, 0x00, 0x00] [(2, 0x8000)] [(0, [0x01, 0x02, 0x03, 0x04])])
      (fun t => (t.readReg 1, t.pc, t.status)) = some (0x4030201, 1, .running) := by decide
theorem test_decode_ldxdw : decodeBytes [0x79, 0x21, 0x08, 0x00, 0x00, 0x00, 0x00, 0x00] = some (.ldxdw 1 2 8) := by decide
theorem test_step_ldxdw :
    after (start 0 [0x79, 0x11, 0x00, 0x00, 0x00, 0x00, 0x00, 0x00]
      [(1, 0x10)] [(16, [0x88, 0x77, 0x66, 0x55, 0x44, 0x33, 0x22, 0x11])])
      (fun t => (t.readReg 1, t.pc, t.status)) = some (0x1122334455667788, 1, .running) := by decide
theorem test_decode_stb :
    decodeBytes [0x72, 0x01, 0x04, 0x00, 0x44, 0x33, 0x22, 0x11] = some (.stb 1 4 287454020) := by decide
theorem test_step_stb :
    after (start 0 [0x72, 0x01, 0x00, 0x00, 0xff, 0x01, 0x00, 0x00] [(1, 0x12c)] [])
      (fun t => (bytesAt t 300 1, t.pc, t.status)) = some ([0xff], 1, .running) := by decide
theorem test_decode_sth :
    decodeBytes [0x6a, 0x01, 0x04, 0x00, 0x44, 0x33, 0x22, 0x11] = some (.sth 1 4 287454020) := by decide
theorem test_step_sth :
    after (start 0 [0x6a, 0x01, 0x01, 0x00, 0x02, 0x01, 0x00, 0x00] [(1, 0x0)] [])
      (fun t => (bytesAt t 1 2, t.pc, t.status)) = some ([0x02, 0x01], 1, .running) := by decide
theorem test_decode_stw : decodeBytes [0x62, 0x01, 0x00, 0x00, 0x07, 0x00, 0x00, 0x00] = some (.stw 1 0 7) := by decide
theorem test_step_stw :
    after (start 0 [0x62, 0x01, 0xfc, 0xff, 0x01, 0x00, 0x00, 0x00] [(1, 0x4)] [])
      (fun t => (bytesAt t 0 4, t.pc, t.status)) = some ([0x01, 0x00, 0x00, 0x00], 1, .running) := by decide
theorem test_decode_stdw :
    decodeBytes [0x7a, 0x01, 0x04, 0x00, 0x44, 0x33, 0x22, 0x11] = some (.stdw 1 4 287454020) := by decide
theorem test_step_stdw :
    after (start 0 [0x7a, 0x01, 0x00, 0x00, 0xfe, 0xff, 0xff, 0xff] [(1, 0x100)] [])
      (fun t => (bytesAt t 256 8, t.pc, t.status)) = some ([0xfe, 0xff, 0xff, 0xff, 0xff, 0xff, 0xff, 0xff], 1, .running) := by decide
theorem test_decode_stxb : decodeBytes [0x73, 0x21, 0x02, 0x00, 0x00, 0x00, 0x00, 0x00] = some (.stxb 1 2 2) := by decide
theorem test_step_stxb :
    after (start 0 [0x73, 0x21, 0x00, 0x00, 0x00, 0x00, 0x00, 0x00]
      [(1, 0x2bc), (2, 0xffffffffffffff00)] [(700, [0xaa])])
      (fun t => (bytesAt t 700 1, t.pc, t.status)) = some ([0x00], 1, .running) := by decide
theorem test_decode_stxh : decodeBytes [0x6b, 0x21, 0x02, 0x00, 0x00, 0x00, 0x00, 0x00] = some (.stxh 1 2 2) := by decide
theorem test_step_stxh :
    after (start 0 [0x6b, 0x21, 0x00, 0x00, 0x00, 0x00, 0x00, 0x00] [(1, 0xffff), (2, 0x5)] [])
      (fun t => (t.pc, t.status)) = some (0, .faulted (.memoryFault (65535) .half)) := by decide
theorem test_decode_stxw : decodeBytes [0x63, 0x21, 0x00, 0x00, 0x00, 0x00, 0x00, 0x00] = some (.stxw 1 2 0) := by decide
theorem test_step_stxw :
    after (start 0 [0x63, 0x11, 0x00, 0x00, 0x00, 0x00, 0x00, 0x00] [(1, 0x1000)] [])
      (fun t => (bytesAt t 4096 4, t.pc, t.status)) = some ([0x00, 0x10, 0x00, 0x00], 1, .running) := by decide
theorem test_decode_stxdw : decodeBytes [0x7b, 0x21, 0x00, 0x00, 0x00, 0x00, 0x00, 0x00] = some (.stxdw 1 2 0) := by decide
theorem test_step_stxdw :
    after (start 0 [0x7b, 0x21, 0x00, 0x00, 0x00, 0x00, 0x00, 0x00] [(1, 0xfff8), (2, 0xffffffffffffffff)] [])
      (fun t => (bytesAt t 65528 8, t.pc, t.status)) = some ([0xff, 0xff, 0xff, 0xff, 0xff, 0xff, 0xff, 0xff], 1, .running) := by decide
theorem test_decode_ja : decodeBytes [0x05, 0x00, 0x02, 0x00, 0x00, 0x00, 0x00, 0x00] = some (.ja 2) := by decide
theorem test_step_ja :
    after (start 2 [0x05, 0x00, 0xfd, 0xff, 0x00, 0x00, 0x00, 0x00] [] [])
      (fun t => (t.pc, t.status)) = some (0, .running) := by decide
theorem test_decode_jeqImm :
    decodeBytes [0x15, 0x01, 0x04, 0x00, 0xff, 0xff, 0xff, 0xff] = some (.jeqImm 1 4 (-1)) := by decide
theorem test_step_jeqImm :
    after (start 2 [0x15, 0x01, 0xfc, 0xff, 0x00, 0x00, 0x00, 0x00] [(1, 0x1)] [])
      (fun t => (t.pc, t.status)) = some (3, .running) := by decide
theorem test_decode_jeqReg : decodeBytes [0x1d, 0x21, 0x04, 0x00, 0x00, 0x00, 0x00, 0x00] = some (.jeqReg 1 2 4) := by decide
theorem test_step_jeqReg :
    after (start 2 [0x1d, 0x21, 0x04, 0x00, 0x05, 0x00, 0x00, 0x00] [(1, 0x5), (2, 0x6)] [])
      (fun t => (t.pc, t.status)) = some (3, .running) := by decide
theorem test_decode_jgtImm :
    decodeBytes [0x25, 0x01, 0x04, 0x00, 0xff, 0xff, 0xff, 0xff] = some (.jgtImm 1 4 (-1)) := by decide
theorem test_step_jgtImm :
    after (start 2 [0x25, 0x01, 0x07, 0x00, 0x00, 0x00, 0x00, 0x00] [(1, 0x1)] [])
      (fun t => (t.pc, t.status)) = some (10, .running) := by decide
theorem test_decode_jgtReg : decodeBytes [0x2d, 0x21, 0x04, 0x00, 0x00, 0x00, 0x00, 0x00] = some (.jgtReg 1 2 4) := by decide
theorem test_step_jgtReg :
    after (start 2 [0x2d, 0x21, 0x04, 0x00, 0x00, 0x00, 0x00, 0x00] [(1, 0xffffffffffffffff), (2, 0x1)] [])
      (fun t => (t.pc, t.status)) = some (7, .running) := by decide
theorem test_decode_jgeImm :
    decodeBytes [0x35, 0x01, 0x04, 0x00, 0xff, 0xff, 0xff, 0xff] = some (.jgeImm 1 4 (-1)) := by decide
theorem test_step_jgeImm :
    after (start 2 [0x35, 0x01, 0x04, 0x00, 0xff, 0xff, 0xff, 0xff] [(1, 0xffffffffffffffff)] [])
      (fun t => (t.pc, t.status)) = some (7, .running) := by decide
theorem test_decode_jgeReg : decodeBytes [0x3d, 0x21, 0x04, 0x00, 0x00, 0x00, 0x00, 0x00] = some (.jgeReg 1 2 4) := by decide
theorem test_step_jgeReg :
    after (start 2 [0x3d, 0x21, 0x04, 0x00, 0x00, 0x00, 0x00, 0x00] [(1, 0x1), (2, 0xffffffffffffffff)] [])
      (fun t => (t.pc, t.status)) = some (3, .running) := by decide
theorem test_decode_jltImm :
    decodeBytes [0xa5, 0x01, 0x04, 0x00, 0xff, 0xff, 0xff, 0xff] = some (.jltImm 1 4 (-1)) := by decide
theorem test_step_jltImm :
    after (start 2 [0xa5, 0x01, 0x04, 0x00, 0xff, 0xff, 0xff, 0xff] [(1, 0x5)] [])
      (fun t => (t.pc, t.status)) = some (7, .running) := by decide
theorem test_decode_jltReg : decodeBytes [0xad, 0x21, 0x04, 0x00, 0x00, 0x00, 0x00, 0x00] = some (.jltReg 1 2 4) := by decide
theorem test_step_jltReg :
    after (start 2 [0xad, 0x21, 0x04, 0x00, 0x00, 0x00, 0x00, 0x00] [(1, 0x1), (2, 0xffffffffffffffff)] [])
      (fun t => (t.pc, t.status)) = some (7, .running) := by decide
theorem test_decode_jleImm :
    decodeBytes [0xb5, 0x01, 0x04, 0x00, 0xff, 0xff, 0xff, 0xff] = some (.jleImm 1 4 (-1)) := by decide
theorem test_step_jleImm :
    after (start 2 [0xb5, 0x01, 0x04, 0x00, 0xff, 0xff, 0xff, 0xff] [(1, 0xffffffffffffffff)] [])
      (fun t => (t.pc, t.status)) = some (7, .running) := by decide
theorem test_decode_jleReg : decodeBytes [0xbd, 0x21, 0x04, 0x00, 0x00, 0x00, 0x00, 0x00] = some (.jleReg 1 2 4) := by decide
theorem test_step_jleReg :
    after (start 2 [0xbd, 0x21, 0x04, 0x00, 0x00, 0x00, 0x00, 0x00] [(1, 0xffffffffffffffff), (2, 0x1)] [])
      (fun t => (t.pc, t.status)) = some (3, .running) := by decide
theorem test_decode_jsetImm :
    decodeBytes [0x45, 0x01, 0x04, 0x00, 0xff, 0xff, 0xff, 0xff] = some (.jsetImm 1 4 (-1)) := by decide
theorem test_step_jsetImm :
    after (start 2 [0x45, 0x01, 0x04, 0x00, 0xff, 0xff, 0xff, 0xff] [(1, 0x8000000000000000)] [])
      (fun t => (t.pc, t.status)) = some (7, .running) := by decide
theorem test_decode_jsetReg :
    decodeBytes [0x4d, 0x21, 0x04, 0x00, 0x00, 0x00, 0x00, 0x00] = some (.jsetReg 1 2 4) := by decide
theorem test_step_jsetReg :
    after (start 2 [0x4d, 0x21, 0x04, 0x00, 0x00, 0x00, 0x00, 0x00] [(1, 0xf0), (2, 0x10)] [])
      (fun t => (t.pc, t.status)) = some (7, .running) := by decide
theorem test_decode_jneImm :
    decodeBytes [0x55, 0x01, 0x04, 0x00, 0xff, 0xff, 0xff, 0xff] = some (.jneImm 1 4 (-1)) := by decide
theorem test_step_jneImm :
    after (start 2 [0x55, 0x01, 0x04, 0x00, 0xff, 0xff, 0xff, 0xff] [(1, 0xffffffff)] [])
      (fun t => (t.pc, t.status)) = some (7, .running) := by decide
theorem test_decode_jneReg : decodeBytes [0x5d, 0x21, 0x04, 0x00, 0x00, 0x00, 0x00, 0x00] = some (.jneReg 1 2 4) := by decide
theorem test_step_jneReg :
    after (start 2 [0x5d, 0x21, 0x04, 0x00, 0x00, 0x00, 0x00, 0x00] [(1, 0x5), (2, 0x6)] [])
      (fun t => (t.pc, t.status)) = some (7, .running) := by decide
theorem test_decode_jsgtImm :
    decodeBytes [0x65, 0x01, 0x04, 0x00, 0xff, 0xff, 0xff, 0xff] = some (.jsgtImm 1 4 (-1)) := by decide
theorem test_step_jsgtImm :
    after (start 2 [0x65, 0x01, 0x04, 0x00, 0xff, 0xff, 0xff, 0xff] [(1, 0x0)] [])
      (fun t => (t.pc, t.status)) = some (7, .running) := by decide
theorem test_decode_jsgtReg :
    decodeBytes [0x6d, 0x21, 0x04, 0x00, 0x00, 0x00, 0x00, 0x00] = some (.jsgtReg 1 2 4) := by decide
theorem test_step_jsgtReg :
    after (start 2 [0x6d, 0x21, 0x04, 0x00, 0x00, 0x00, 0x00, 0x00] [(1, 0x1), (2, 0xffffffffffffffff)] [])
      (fun t => (t.pc, t.status)) = some (7, .running) := by decide
theorem test_decode_jsgeImm :
    decodeBytes [0x75, 0x01, 0x04, 0x00, 0xff, 0xff, 0xff, 0xff] = some (.jsgeImm 1 4 (-1)) := by decide
theorem test_step_jsgeImm :
    after (start 2 [0x75, 0x01, 0x04, 0x00, 0xff, 0xff, 0xff, 0xff] [(1, 0xffffffffffffffff)] [])
      (fun t => (t.pc, t.status)) = some (7, .running) := by decide
theorem test_decode_jsgeReg :
    decodeBytes [0x7d, 0x21, 0x04, 0x00, 0x00, 0x00, 0x00, 0x00] = some (.jsgeReg 1 2 4) := by decide
theorem test_step_jsgeReg :
    after (start 2 [0x7d, 0x21, 0x04, 0x00, 0x00, 0x00, 0x00, 0x00] [(1, 0xffffffffffffffff), (2, 0x1)] [])
      (fun t => (t.pc, t.status)) = some (3, .running) := by decide
theorem test_decode_jsltImm :
    decodeBytes [0xc5, 0x01, 0x04, 0x00, 0xff, 0xff, 0xff, 0xff] = some (.jsltImm 1 4 (-1)) := by decide
theorem test_step_jsltImm :
    after (start 2 [0xc5, 0x01, 0x04, 0x00, 0xff, 0xff, 0xff, 0xff] [(1, 0xfffffffffffffffe)] [])
      (fun t => (t.pc, t.status)) = some (7, .running) := by decide
theorem test_decode_jsltReg :
    decodeBytes [0xcd, 0x21, 0x04, 0x00, 0x00, 0x00, 0x00, 0x00] = some (.jsltReg 1 2 4) := by decide
theorem test_step_jsltReg :
    after (start 2 [0xcd, 0x21, 0x04, 0x00, 0x00, 0x00, 0x00, 0x00] [(1, 0xffffffffffffffff), (2, 0x1)] [])
      (fun t => (t.pc, t.status)) = some (7, .running) := by decide
theorem test_decode_jsleImm :
    decodeBytes [0xd5, 0x01, 0x04, 0x00, 0xff, 0xff, 0xff, 0xff] = some (.jsleImm 1 4 (-1)) := by decide
theorem test_step_jsleImm :
    after (start 2 [0xd5, 0x01, 0x04, 0x00, 0xff, 0xff, 0xff, 0xff] [(1, 0x0)] [])
      (fun t => (t.pc, t.status)) = some (3, .running) := by decide
theorem test_decode_jsleReg :
    decodeBytes [0xdd, 0x21, 0x04, 0x00, 0x00, 0x00, 0x00, 0x00] = some (.jsleReg 1 2 4) := by decide
theorem test_step_jsleReg :
    after (start 2 [0xdd, 0x21, 0x04, 0x00, 0x00, 0x00, 0x00, 0x00] [(1, 0x1), (2, 0xffffffffffffffff)] [])
      (fun t => (t.pc, t.status)) = some (3, .running) := by decide
theorem test_decode_call : decodeBytes [0x85, 0x00, 0x00, 0x00, 0x07, 0x00, 0x00, 0x00] = some (.call 7) := by decide
theorem test_step_call :
    after ({ start 0 [0x85, 0x00, 0x00, 0x00, 0x07, 0x00, 0x00, 0x00]
      [(0, 0x63), (1, 0x2), (2, 0x3)] [] with resolver := (some [7]) })
      (fun t => (t.pc, t.status)) = some (1, .running) := by decide
theorem test_decode_exit : decodeBytes [0x95, 0x00, 0x00, 0x00, 0x00, 0x00, 0x00, 0x00] = some (.exit) := by decide
theorem test_step_exit :
    after (start 0 [0x95, 0x00, 0x00, 0x00, 0x00, 0x00, 0x00, 0x00] [(0, 0xffffffffffffffff)] [])
      (fun t => (t.pc, t.status)) = some (0, .halted (-1)) := by decide

/-! ### The step machine (V14, E3, E5, E7) and the host's transactions -/

theorem test_empty_program_halts : after (State.init [] none) (fun t => (t.status, t.pc)) = some (.halted 0, 0) := by decide
theorem test_falls_off_with_r0 : after { start 1 [] [(0, 42)] [] with prog := [zeroSlot] } (fun t => (t.status, t.pc)) =
    some (.halted 42, 1) := by decide
theorem test_absorbs : after { start 0 [0x95, 0, 0, 0, 0, 0, 0, 0] [] [] with status := .faulted (.invalidOpcode 0xee) }
    (fun t => t.status) = some (.faulted (.invalidOpcode 0xee)) := by decide
theorem test_unknown_opcode_before_register :
    after (start 0 [0xee, 0xff, 0, 0, 0, 0, 0, 0] [] []) (fun t => (t.status, t.pc)) =
      some (.faulted (.invalidOpcode 0xee), 0) := by decide
theorem test_dest_before_src : after (start 0 [0x0f, 0xdc, 0, 0, 0, 0, 0, 0] [] []) (fun t => t.status) =
    some (.faulted (.invalidRegister 12)) := by decide
theorem test_register_before_own_trap : after (start 0 [0x37, 0x0c, 0, 0, 0, 0, 0, 0] [] []) (fun t => t.status) =
    some (.faulted (.invalidRegister 12)) := by decide
theorem test_second_slot_executes : after { start 1 [0, 0, 0, 0, 0x44, 0x33, 0x22, 0x11] [] [] with status := .running }
    (fun t => t.status) = some (.faulted (.invalidOpcode 0)) := by decide
theorem test_faulting_store_writes_nothing :
    after (start 0 [0x62, 0x01, 0, 0, 7, 0, 0, 0] [(1, 0xfffd)] []) (fun t => (bytesAt t 65533 3, t.status)) =
      some ([0, 0, 0], .faulted (.memoryFault 65533 .word)) := by decide
theorem test_fields_of_slot : splitSlots [0x55, 0xa1, 0xfd, 0xff, 0x00, 0x00, 0x00, 0x80] =
    [⟨0x55, 1, 10, -3, -2147483648⟩] := by decide
theorem test_reencode : programBytes (splitSlots [0xee, 0xfe, 0x34, 0x12, 0x78, 0x56, 0x34, 0x12]) =
    [0xee, 0xfe, 0x34, 0x12, 0x78, 0x56, 0x34, 0x12] := by decide
theorem test_table_word_runs : after (State.reset.withFetchWord 64 0x00000005_0000_00b7) (fun t => (t.readReg 0, t.pc)) =
    some (5, 1) := by decide

/-! ### States that meet the statements' hypotheses -/

/-- A state whose slot at `pc` is `EXIT`. -/
def exitState : State := start 0 [0x95, 0, 0, 0, 0, 0, 0, 0] [(0, 7)] []

/-- A state, running, with `x[1] = 65528`, `x[2] = 3`, and two bytes of memory set; its slot at `pc` is `JA -2`. -/
def busyState : State :=
  { start 0 [0x05, 0, 0xfe, 0xff, 0, 0, 0, 0] [(1, 65528), (2, 3)] [(16, [0x88]), (65535, [0x11])] with status := .running }

/-- A running state at slot 0 with canonical memory meets the invariant. -/
theorem init_meets_inv (s : State) (hp : s.pc = 0) (hm : s.mem.wf = true) (hs : s.status = .running) : s.Inv :=
  ⟨hm, by omega, by simp [hs], by simp [hs], by simp [hs]⟩

theorem test_meets_ReencodingKeepsOrZeroesEachField :
    decode ⟨0xd4, 1, 3, 0x1234, 16⟩ none = .ok (.le16 1) ∧
    decode ⟨0x18, 1, 3, 7, 1⟩ (some ⟨0xee, 15, 15, 0x1234, 2⟩) = .ok (.lddw 1 1 2) := by decide

theorem test_meets_IgnoredFieldsDoNotMatter :
    (SameUsedFields ⟨0x18, 1, 3, 7, 1⟩ ⟨0x18, 1, 10, 0, 1⟩ ∧
      (some (⟨0xee, 15, 15, 0x1234, 2⟩ : Slot)).map (·.imm) = (some (⟨0, 0, 0, 0, 2⟩ : Slot)).map (·.imm)) ∧
    SameUsedFields ⟨0x95, 10, 0, 2, 5⟩ ⟨0x95, 0, 10, 0, 0⟩ := by
  unfold SameUsedFields
  decide

theorem test_meets_FieldsOfSlotAreLittleEndian :
    decodeProgram [0xee, 0xfe, 0x34, 0x12, 0x78, 0x56, 0x34, 0x12, 0x95, 0, 0, 0, 0xff, 0xff, 0xff, 0xff] =
      .ok [⟨0xee, 14, 15, 4660, 305419896⟩, ⟨0x95, 0, 0, 0, -1⟩] ∧
    ([⟨0xee, 14, 15, 4660, 305419896⟩, ⟨0x95, 0, 0, 0, -1⟩] : List Slot)[1]? = some ⟨0x95, 0, 0, 0, -1⟩ := by decide

theorem test_meets_ProgramRoundTrip :
    ([] : List Byte).length = 8 * 0 ∧
    ([0xee, 0xfe, 0x34, 0x12, 0x78, 0x56, 0x34, 0x12, 0x95, 0, 0, 0, 0xff, 0xff, 0xff, 0xff] : List Byte).length = 8 * 2 := by
  decide

theorem test_meets_MisalignedLengthIsNoRun :
    ([] : List Byte).length % 8 = 0 ∧ ([1, 2, 3, 4, 5, 6, 7, 8, 9] : List Byte).length % 8 ≠ 0 := by decide

theorem test_meets_StepRunsTheDecodedInstruction :
    exitState.status.terminal = false ∧ exitState.prog[exitState.pc]? = some ⟨0x95, 0, 0, 0, 0⟩ ∧
    decode ⟨0x95, 0, 0, 0, 0⟩ exitState.prog[exitState.pc + 1]? = .ok .exit := by decide

theorem test_meets_StepRunsTheLoadedBytes :
    load (some 1) [0x95, 0, 0, 0, 0, 0, 0, 0] none = .ok (State.init [⟨0x95, 0, 0, 0, 0⟩] none) ∧
    (State.init [⟨0x95, 0, 0, 0, 0⟩] none).status.terminal = false ∧
    decodeBytes (([0x95, 0, 0, 0, 0, 0, 0, 0] : List Byte).drop (8 * 0)) = some .exit := by decide

theorem test_meets_ChecksTrapInOrder :
    (¬(slotOf 0x18 12 0 0 0).secondSlotOk (start 0 [0x18, 0x0c, 0, 0, 0, 0, 0, 0] [] []).prog[1]?) ∧
    ((slotOf 0x0f 12 13 0 0).opcodeKnown ∧ (slotOf 0x0f 12 13 0 0).selectorOk ∧ (slotOf 0x0f 12 13 0 0).secondSlotOk none ∧
      ¬(slotOf 0x0f 12 13 0 0).destOk) ∧
    ((slotOf 0xd4 10 11 0 16).opcodeKnown ∧ (slotOf 0xd4 10 11 0 16).selectorOk ∧
      (slotOf 0xd4 10 11 0 16).secondSlotOk none ∧ (slotOf 0xd4 10 11 0 16).destOk ∧ ¬(slotOf 0xd4 10 11 0 16).srcOk) ∧
    (start 0 [0x0f, 0xdc, 0, 0, 0, 0, 0, 0] [] []).prog[0]? = some (slotOf 0x0f 12 13 0 0) := by decide

theorem test_meets_TerminalStatesAbsorb :
    (exitState.setStatus (.halted 7)).status = .halted 7 ∧
    (exitState.setStatus (.faulted .divisionByZero)).status = .faulted .divisionByZero := by decide

theorem test_meets_EveryStepAnswers : State.reset.status.terminal = false ∧ exitState.status.terminal = false := by decide

theorem test_meets_FallsOffTheEnd : State.reset.status.terminal = false ∧ State.reset.prog.length ≤ State.reset.pc := by decide

theorem test_meets_HaltsInTwoPlacesOnly :
    after exitState (fun t => t.status) = some (.halted 7) ∧ after State.reset (fun t => t.status) = some (.halted 0) ∧
    after busyState (fun t => t.status) = some (.faulted (.invalidJumpTarget (-1))) := by decide

theorem test_meets_TrapsChangeOnlyTheStatus :
    busyState.status.terminal = false ∧ after busyState (fun t => t.status) = some (.faulted (.invalidJumpTarget (-1))) := by
  decide

theorem test_meets_OwnTrapsByTheTable :
    busyState.status = .running ∧
    exec (.divImm 1 0) busyState = .next (busyState.setStatus (.faulted .divisionByZero)) ∧
    exec (.ldxdw 1 1 1) busyState = .next (busyState.setStatus (.faulted (.memoryFault 65529 .dword))) ∧
    exec (.ldxb 1 1 7) busyState = .next ((busyState.writeReg 1 0x11).advance 1) := ⟨rfl, rfl, rfl, rfl⟩

theorem test_meets_ProgramNeverChanges : StepsTo 1 exitState (exitState.setStatus (.halted 7)) := ⟨_, rfl, rfl⟩

theorem test_meets_StepKeepsTheInvariant :
    busyState.Inv ∧ step busyState = .next (busyState.setStatus (.faulted (.invalidJumpTarget (-1)))) :=
  ⟨init_meets_inv _ rfl (by decide) rfl, rfl⟩

theorem test_meets_ResultAtTheEnd :
    (exitState.setStatus (.halted 7)).status.terminal = true ∧ exitState.status.terminal = false := by decide

theorem test_meets_JumpBeyondTheEndHalts :
    (start 0 [0x05, 0, 0, 0, 0, 0, 0, 0] [] []).prog[0]? = some ⟨0x05, 0, 0, 0, 0⟩ ∧
    decode ⟨0x05, 0, 0, 0, 0⟩ none = .ok (.ja 0) ∧
    ((start 0 [0x05, 0, 0, 0, 0, 0, 0, 0] [] []).prog.length : Int) ≤ ((0 : Nat) : Int) + 1 + (0 : Off).toInt := by decide

theorem test_meets_RegisterIsolation :
    exec (.addReg 1 2) busyState = .next ((busyState.writeReg 1 65531).advance 1) ∧ writtenReg (.addReg 1 2) ≠ some 2 ∧
    busyState.status = .running ∧ exec (.divReg 1 3) busyState = .next (busyState.setStatus (.faulted .divisionByZero)) :=
  ⟨rfl, by decide, rfl, rfl⟩

theorem test_meets_MemoryIsolation :
    exec (.stxdw 1 2 0) busyState = .next ((busyState.setMem (busyState.mem.writeLE 65528 3 8)).advance 1) ∧
    isStore (.stxdw 1 2 0) = true ∧ memAccess (.stxdw 1 2 0) busyState = some (65528, .dword) ∧
    isStore (.ldxb 1 2 0) = false ∧ memAccess (.ldxb 3 1 7) busyState = some (65535, .byte) := ⟨rfl, rfl, by decide, rfl, by decide⟩

theorem test_meets_UntouchedRegistersDoNotMatter :
    (3 : Reg) ∉ touchedRegs (.addReg 1 2) ∧ exec (.addReg 1 2) busyState = .next ((busyState.writeReg 1 65531).advance 1) :=
  ⟨by decide, rfl⟩

theorem test_meets_AccessAdmittedIff :
    memAccess (.ldxdw 3 1 0) busyState = some (65528, .dword) ∧ Admitted (65528 : Word).toInt 8 ∧
    ¬Admitted (65529 : Word).toInt 8 ∧ ¬Admitted (-1 : Word).toInt 1 ∧ Admitted (65535 : Word).toInt 1 ∧
    busyState.status = .running := by decide

theorem test_meets_ReadIsTheSumOfItsBytes :
    (65533 : Word).toInt + Width.bytes .word > 65536 ∧ (-1 : Word).toInt < 0 ∧
    ¬((65532 : Word).toInt < 0 ∨ (65532 : Word).toInt + Width.bytes .word > 65536) := by decide

theorem test_meets_WriteStoresItsBytesOnly :
    busyState.mem.wf = true ∧ (65533 : Word).toInt + Width.bytes .word > 65536 ∧
    ¬((65532 : Word).toInt < 0 ∨ (65532 : Word).toInt + Width.bytes .word > 65536) := by decide

theorem test_meets_FaultingAccessDoesNothing :
    memAccess (.stxdw 1 2 1) busyState = some (65529, .dword) ∧ ¬Admitted (65529 : Word).toInt (Width.bytes .dword) ∧
    (start 0 [] [(1, 65534)] []).readReg 1 = 65534 := by decide

theorem test_meets_MixedWidthAccessSeesBytes :
    busyState.mem.wf = true ∧
    memWrite busyState.mem 65528 .dword 0x1122334455667788 = .ok (busyState.mem.writeLE 65528 0x1122334455667788 8) ∧
    memWrite busyState.mem 16 .dword 0x1122334455667788 = .ok (busyState.mem.writeLE 16 0x1122334455667788 8) ∧
    Admitted (65532 : Word).toInt (Width.bytes .word) := ⟨by decide, rfl, rfl, by decide⟩

theorem test_meets_DivTruncatesTowardZero : (-1 : Imm) ≠ 0 ∧ busyState.readReg 2 ≠ 0 := by decide

theorem test_meets_ModTakesTheDividendsSign : (-2 : Imm) ≠ 0 ∧ busyState.readReg 1 ≠ 0 := by decide

theorem test_meets_DivisionByZeroTraps :
    busyState.readReg 3 = 0 ∧ busyState.status = .running ∧
    exec (.modReg 1 3) busyState = .next (busyState.setStatus (.faulted .divisionByZero)) := ⟨by decide, rfl, rfl⟩

theorem test_meets_LoadAbsoluteReadsMemory :
    Admitted (absAddr 65535).toInt 1 ∧ Admitted (absAddr 65534).toInt 2 ∧ Admitted (absAddr 65532).toInt 4 ∧
    Admitted (absAddr 65528).toInt 8 ∧ Admitted (absAddr 0).toInt 8 := by decide

theorem test_meets_LoadIndirectReadsMemory :
    Admitted (indAddr 1 7 busyState).toInt 1 ∧ Admitted (indAddr 1 6 busyState).toInt 2 ∧
    Admitted (indAddr 1 4 busyState).toInt 4 ∧ Admitted (indAddr 2 (-3) busyState).toInt 8 := by decide

theorem test_meets_LoadIndexedReadsMemory :
    Admitted (dispAddr 1 7 busyState).toInt 1 ∧ Admitted (dispAddr 1 6 busyState).toInt 2 ∧
    Admitted (dispAddr 1 4 busyState).toInt 4 ∧ Admitted (dispAddr 2 (-3) busyState).toInt 8 := by decide

theorem test_meets_StoreImmediateWritesMemory :
    busyState.mem.wf = true ∧ Admitted (dispAddr 1 7 busyState).toInt 1 ∧ Admitted (dispAddr 1 6 busyState).toInt 2 ∧
    Admitted (dispAddr 1 4 busyState).toInt 4 ∧ Admitted (dispAddr 1 0 busyState).toInt 8 := by decide

theorem test_meets_StoreRegisterWritesMemory :
    busyState.mem.wf = true ∧ Admitted (dispAddr 2 (-3) busyState).toInt 1 ∧ Admitted (dispAddr 2 (-3) busyState).toInt 2 ∧
    Admitted (dispAddr 2 (-3) busyState).toInt 4 ∧ Admitted (dispAddr 2 (-3) busyState).toInt 8 := by decide

theorem test_meets_JumpAlways :
    (0 : Int) ≤ (busyState.pc : Int) + 1 + (-1 : Off).toInt ∧ (busyState.pc : Int) + 1 + (-2 : Off).toInt < 0 := by decide

/-- The three ways of a conditional jump: taken to slot 0, not taken, taken to -1. -/
theorem test_meets_UnsignedJumps :
    (((busyState.readReg 2).toNat : Int) < (-1 : Imm).toInt % 2 ^ 64 ∧ 0 ≤ (busyState.pc : Int) + 1 + (-1 : Off).toInt) ∧
    ¬((busyState.readReg 1).toNat < (busyState.readReg 2).toNat) ∧
    ((busyState.readReg 2).toInt ≠ (-1 : Imm).toInt ∧ (busyState.pc : Int) + 1 + (-2 : Off).toInt < 0) := by decide

/-- The three ways of a conditional jump: taken to slot 0, not taken, taken to -1. -/
theorem test_meets_SignedJumps :
    ((busyState.readReg 2).toInt > (-1 : Imm).toInt ∧ 0 ≤ (busyState.pc : Int) + 1 + (-1 : Off).toInt) ∧
    ¬((busyState.readReg 2).toInt < (-1 : Imm).toInt) ∧
    ((busyState.readReg 2).toInt ≥ (3 : Imm).toInt ∧ (busyState.pc : Int) + 1 + (-2 : Off).toInt < 0) := by decide

theorem test_meets_CallAsksTheResolver :
    (({ busyState with resolver := some [7] } : State).resolver = some [7] ∧ (7 : Imm) ∈ [(7 : Imm)]) ∧
    unresolved 7 busyState ∧ unresolved 8 { busyState with resolver := some [7] } := by
  refine ⟨⟨rfl, by decide⟩, nofun, ?_⟩
  rintro _ ⟨rfl⟩
  decide

theorem test_meets_ExitHalts : busyState.Inv := init_meets_inv _ rfl (by decide) rfl

/-- A program of one slot: accepted at `PROG_MAX` 1 (and by a block without a limit), refused at 0; 9 bytes are misaligned. -/
theorem test_meets_LoadAcceptsUpToProgMax :
    ([0x95, 0, 0, 0, 0, 0, 0, 0] : List Byte).length = 8 * 1 ∧ (∀ m, some 1 = some m → 1 ≤ m) ∧
    (∃ m, some 0 = some m ∧ m < 1) ∧ ([1, 2, 3, 4, 5, 6, 7, 8, 9] : List Byte).length % 8 ≠ 0 :=
  ⟨rfl, fun _ h => by cases h; decide, ⟨0, rfl, by decide⟩, by decide⟩

theorem test_load_honours_progMax :
    load (some 0) [0x95, 0, 0, 0, 0, 0, 0, 0] none = .error (.programTooLong 1) ∧
    load none [0x95, 0, 0, 0, 0, 0, 0, 0] none = .ok (State.init [⟨0x95, 0, 0, 0, 0⟩] none) := by decide

/-- `JA 32767` in the one slot of a program: `pc` reaches 32768, the most that `PROG_MAX` 1 allows. -/
theorem test_meets_PcOfARunFitsProgMax :
    load (some 1) [0x05, 0, 0xff, 0x7f, 0, 0, 0, 0] none = .ok (State.init [⟨0x05, 0, 0, 0x7fff, 0⟩] none) ∧
    after (State.init [⟨0x05, 0, 0, 0x7fff, 0⟩] none) (fun t => t.pc) = some 32768 ∧
    StepsTo 1 (State.init [⟨0x05, 0, 0, 0x7fff, 0⟩] none)
      { State.init [⟨0x05, 0, 0, 0x7fff, 0⟩] none with pc := 32768, status := .running } :=
  ⟨by decide, by decide, _, rfl, rfl⟩

end Sys2Proof.Tests
end

section
/-!
PROOF. The reset values (spec/10_state.md R23) and what the host reads at the end of a run (R25).
-/

namespace Sys2Proof.Machine

/-! ### The reset values -/

/-- The memory that lists no byte, the one after reset, reads 0 everywhere (R23). -/
@[simp] theorem readByte_nil (a : Nat) : Memory.readByte [] a = 0 := rfl

/-- Settles O22: each part is the law of `State.restart` or `State.reset` for that piece of the state. -/
theorem resetValues : Obligations.ResetValues := by
  refine ⟨fun s => ⟨readReg_restart s, restart_pc s, fun a _ => ?_, restart_status s, restart_prog s⟩,
    readReg_reset, reset_pc, fun a _ => ?_, reset_status⟩
  · rw [restart_mem, readByte_nil]
  · rw [reset_mem, readByte_nil]

/-! ### The result of a run -/

/-- There is no result before the end (R25). -/
theorem result_of_not_terminal {s : State} (h : s.status.terminal = false) : s.result = none := by
  simp [State.result, h]

/-- At the end the host reads the registers as signed, all of memory, and the status (R25). -/
theorem result_of_terminal {s : State} (h : s.status.terminal = true) :
    s.result = some { finalRegisters := s.regs.toList.map BitVec.toInt
                      finalMemory := (List.range Config.memorySize).map s.mem.readByte
                      outcome := s.status } :=
  if_pos h

/-- In the list of the signed register values, place `r` holds `x[r]` (R11, R25). -/
theorem getElem?_signedRegs (s : State) (r : Reg) :
    (s.regs.toList.map BitVec.toInt)[r.val]? = some (s.readReg r).toInt := by
  have hr : r.val < s.regs.toList.length := by simp
  rw [List.getElem?_map, List.getElem?_eq_getElem hr]
  simp [State.readReg, Vector.get_eq_getElem]

/-- In the list of the first `n` bytes of memory, place `a` holds the byte at address `a` (R25, R30). -/
theorem getElem?_bytesInOrder (m : Memory) {n a : Nat} (h : a < n) :
    ((List.range n).map m.readByte)[a]? = some (m.readByte a) := by
  rw [List.getElem?_map, List.getElem?_range h, Option.map_some]

/-- Settles O23, by the two cases of `State.result`: the status is terminal or it is not. -/
theorem resultAtTheEnd : Obligations.ResultAtTheEnd := by
  refine fun s => ⟨fun hend => ⟨_, result_of_terminal hend, ?_, getElem?_signedRegs s, ?_, ?_, rfl⟩,
    result_of_not_terminal⟩
  · rw [List.length_map, Vector.length_toList]
  · rw [List.length_map, List.length_range]
  · intro a ha
    dsimp only
    exact getElem?_bytesInOrder s.mem ha

end Sys2Proof.Machine
end

section
/-!
PROOF. The memory subsystem (spec/20_memory.md): which accesses are admitted (R32), what a read answers (R34), what a
write stores (R35), and that no store reaches the program (R44).
-/

namespace Sys2Proof.Machine

/-! ### The two primitives on admitted and on refused addresses -/

section
variable {m : Memory} {addr : Word} {w : Width} {v : Word}

/-- A read inside the memory answers its bytes (R34). -/
theorem memRead_of_admitted (h : Admitted addr.toInt (Width.bytes w)) :
    memRead m addr w = .ok (m.readLE addr.toInt.toNat (Width.bytes w)) :=
  if_pos ((inBounds_eq_true_iff addr w).2 h)

/-- A read that leaves the memory answers `MemoryFault` (R34). -/
theorem memRead_of_not_admitted (h : ¬Admitted addr.toInt (Width.bytes w)) :
    memRead m addr w = .error (.memoryFault addr.toInt w) :=
  if_neg fun hb => h ((inBounds_eq_true_iff addr w).1 hb)

/-- A write inside the memory stores its bytes (R35). -/
theorem memWrite_of_admitted (h : Admitted addr.toInt (Width.bytes w)) :
    memWrite m addr w v = .ok (m.writeLE addr.toInt.toNat v (Width.bytes w)) :=
  if_pos ((inBounds_eq_true_iff addr w).2 h)

/-- A write that leaves the memory answers `MemoryFault` (R35). -/
theorem memWrite_of_not_admitted (h : ¬Admitted addr.toInt (Width.bytes w)) :
    memWrite m addr w v = .error (.memoryFault addr.toInt w) :=
  if_neg fun hb => h ((inBounds_eq_true_iff addr w).1 hb)

/-- A read succeeds exactly where its access is admitted (R32). -/
theorem exists_memRead_eq_ok_iff : (∃ x, memRead m addr w = .ok x) ↔ Admitted addr.toInt (Width.bytes w) := by
  refine ⟨fun ⟨x, hx⟩ => ?_, fun h => ⟨_, memRead_of_admitted h⟩⟩
  by_contra h
  cases (memRead_of_not_admitted h).symm.trans hx

/-- A write succeeds exactly where its access is admitted (R32). -/
theorem exists_memWrite_eq_ok_iff : (∃ m', memWrite m addr w v = .ok m') ↔ Admitted addr.toInt (Width.bytes w) := by
  refine ⟨fun ⟨m', hm'⟩ => ?_, fun h => ⟨_, memWrite_of_admitted h⟩⟩
  by_contra h
  cases (memWrite_of_not_admitted h).symm.trans hm'

end

/-- An access is refused for a negative address or for an end beyond the memory (R34, R35). -/
theorem not_admitted_iff {A : Int} {n : Nat} : ¬Admitted A n ↔ A < 0 ∨ A + n > 65536 := by
  unfold Admitted
  omega

/-- The bound on the end of an access as a bound on its address (R32). -/
theorem admitted_iff_le_sub {A : Int} {n : Nat} : Admitted A n ↔ 0 ≤ A ∧ A ≤ 65536 - n := by
  unfold Admitted
  omega

/-! ### What a read answers -/

/-- Settles O29: the two outcomes of a read, the value being that of `readLE`. -/
theorem readIsTheSumOfItsBytes : Obligations.ReadIsTheSumOfItsBytes := by
  intro m addr w
  rw [← not_admitted_iff, not_not]
  refine ⟨memRead_of_not_admitted, fun h => ⟨_, memRead_of_admitted h, ?_⟩⟩
  have hval := readLE_toNat m addr.toInt.toNat (width_bytes_le w)
  exact ⟨hval, hval ▸ bytesValue_lt m _ _⟩

/-! ### What a write stores -/

/-- Settles O30: the two outcomes of a write, the bytes stored being those of `writeLE`. -/
theorem writeStoresItsBytesOnly : Obligations.WriteStoresItsBytesOnly := by
  intro m addr w v hwf
  rw [← not_admitted_iff, not_not]
  refine ⟨memWrite_of_not_admitted, fun h => ?_⟩
  have hok : memWrite m addr w v = .ok (m.writeLE addr.toInt.toNat v (Width.bytes w)) := memWrite_of_admitted h
  obtain ⟨hlow, hend⟩ := h
  have hfit : addr.toInt.toNat + Width.bytes w ≤ Config.memorySize := show _ ≤ 65536 by omega
  refine ⟨_, hok, memWrite_wf hwf hok, fun j hj => ?_, fun a ha => readByte_writeLE_outside m _ v (by omega)⟩
  rw [readByte_writeLE_inside hwf _ v hfit hj, toNat_byteOf]

/-! ### The trap of a memory instruction -/

/-- The 20 instructions that access memory are loads and stores at the address and width of `memAccess` (R140, R142). -/
theorem exec_of_memAccess {i : Instr} {s : State} {addr : Word} {w : Width} (h : memAccess i s = some (addr, w)) :
    (∃ d, exec i s = loadReg d addr w s) ∨ ∃ v, exec i s = storeMem addr w v s := by
  cases i with
  | ldabsb d | ldabsh d | ldabsw d | ldabsdw d | ldindb d | ldindh d | ldindw d | ldinddw d
  | ldxb d | ldxh d | ldxw d | ldxdw d =>
    cases h
    exact .inl ⟨d, rfl⟩
  | stb | sth | stw | stdw | stxb | stxh | stxw | stxdw =>
    cases h
    exact .inr ⟨_, rfl⟩
  | _ => cases h

/-- A memory instruction whose access is not admitted takes `MemoryFault` (R36). -/
theorem takesTrap_of_not_admitted {i : Instr} {s : State} {addr : Word} {w : Width}
    (h : memAccess i s = some (addr, w)) (hb : ¬Admitted addr.toInt (Width.bytes w)) :
    TakesTrap i s (.memoryFault addr.toInt w) := by
  rcases exec_of_memAccess h with ⟨d, hload⟩ | ⟨v, hstore⟩
  · exact takesTrap_loadReg hload hb
  · exact takesTrap_storeMem hstore hb

/-- An instruction that runs into a trap has met that trap's cause in the table of R200. -/
theorem ownTrap_of_faulted {i : Instr} {s t : State} {r : Trap} (h : exec i s = .next t) (hs : s.status = .running)
    (ht : t.status = .faulted r) : ownTrap i s r := by
  rcases exec_next h with ⟨-, hdone⟩ | ⟨r', hown, rfl⟩
  · rcases hdone with ⟨d, v, -, -, rfl | ⟨rfl, -⟩⟩ | ⟨addr, w, v, -, -, -, -, rfl⟩ | ⟨p, -, -, -, rfl⟩ | ⟨-, rfl⟩ <;>
      simp [hs] at ht
  · cases ht
    exact hown

/-- An instruction takes the `MemoryFault` of its access exactly when the access is not admitted (R32, R36). -/
theorem exec_memoryFault_iff {i : Instr} {s : State} {addr : Word} {w : Width} (h : memAccess i s = some (addr, w))
    (hs : s.status = .running) :
    (∃ t, exec i s = .next t ∧ t.status = .faulted (.memoryFault addr.toInt w)) ↔
      ¬Admitted addr.toInt (Width.bytes w) := by
  constructor
  · rintro ⟨t, ht, hfault⟩
    obtain ⟨_, -, -, hb⟩ := ownTrap_of_faulted ht hs hfault
    exact hb
  · intro hb
    obtain ⟨t, ht, hfault, -⟩ := takesTrap_of_not_admitted h hb
    exact ⟨t, ht, hfault⟩

/-! ### Which accesses are admitted -/

/-- The last address of R32 for each width is the one whose access ends with the memory. -/
theorem lastAddress_add_bytes {w : Width} {last : Nat}
    (h : (w, last) ∈ [(Width.byte, 65535), (.half, 65534), (.word, 65532), (.dword, 65528)]) :
    last + Width.bytes w = 65536 := by
  simp only [List.mem_cons, Prod.mk.injEq, List.not_mem_nil, or_false] at h
  rcases h with ⟨rfl, rfl⟩ | ⟨rfl, rfl⟩ | ⟨rfl, rfl⟩ | ⟨rfl, rfl⟩ <;> rfl

/-- Settles O28: the primitives succeed exactly where `Admitted` holds, and an instruction traps exactly where not. -/
theorem accessAdmittedIff : Obligations.AccessAdmittedIff := by
  refine ⟨fun m addr w v => ⟨exists_memRead_eq_ok_iff, exists_memWrite_eq_ok_iff,
    exists_memRead_eq_ok_iff.trans admitted_iff_le_sub, fun hno => ?_, fun hno => ?_⟩, fun w last hlast m addr => ?_,
    fun i s addr w => exec_memoryFault_iff⟩
  · exact memRead_of_not_admitted fun h => hno _ (memRead_of_admitted h)
  · exact memWrite_of_not_admitted fun h => hno _ (memWrite_of_admitted h)
  · have hend := lastAddress_add_bytes hlast
    rw [exists_memRead_eq_ok_iff, admitted_iff_le_sub, show (65536 - Width.bytes w : Int) = last by omega]

/-! ### The program store -/

/-- Executing an instruction leaves the program store as it was. -/
theorem exec_keeps_prog {i : Instr} {s t : State} (h : exec i s = .next t) : t.prog = s.prog := by
  rcases exec_next h with ⟨-, hdone⟩ | ⟨r, -, rfl⟩
  · rcases hdone with ⟨d, v, -, -, rfl | ⟨rfl, -⟩⟩ | ⟨addr, w, v, -, -, -, -, rfl⟩ | ⟨p, -, -, -, rfl⟩ | ⟨-, rfl⟩ <;> rfl
  · rfl

/-- A step leaves the program store as it was (R44). -/
theorem step_keeps_prog {s t : State} (h : step s = .next t) : t.prog = s.prog := by
  rcases step_cases s with ⟨-, hs⟩ | ⟨-, -, hs⟩ | ⟨sl, e, -, -, -, hs⟩ | ⟨sl, i, -, -, -, hs⟩ <;> rw [hs] at h
  · cases h
    rfl
  · cases h
    rfl
  · cases h
    rfl
  · exact (exec_keeps_prog h).trans (setStatus_prog s .running)

/-- Any number of steps leaves the program store as it was (R44). -/
theorem stepsTo_keeps_prog {k : Nat} {s t : State} (h : StepsTo k s t) : t.prog = s.prog := by
  induction k generalizing s with
  | zero => exact congrArg State.prog h
  | succ k ih =>
    obtain ⟨u, hstep, hrest⟩ := h
    exact (ih hrest).trans (step_keeps_prog hstep)

/-- Settles O19: what a fetch finds depends on the program store only, which no run changes. -/
theorem programNeverChanges : Obligations.ProgramNeverChanges := fun _ p _ _ h =>
  ⟨stepsTo_keeps_prog h, congrArg (fetch · p) (stepsTo_keeps_prog h)⟩

end Sys2Proof.Machine
end

section
/-!
PROOF. The decoder at load time (spec/30_encoding.md R50 to R52): a slot's eight bytes and its five fields.
-/

namespace Sys2Proof

/-! ### The slots of a buffer -/

/-- The load-time decoder answers a program exactly for whole slots, and then the buffer's slots in order (R52). -/
theorem decodeProgram_eq_ok_iff {bytes : List Byte} {prog : List Slot} :
    decodeProgram bytes = .ok prog ↔ bytes.length % 8 = 0 ∧ splitSlots bytes = prog := by
  by_cases hlen : bytes.length % 8 = 0
  · simp [decodeProgram, hlen]
  · simp [decodeProgram, hlen]

/-- Slot `k` of a buffer is made of its bytes `8k` to `8k+7` (R50). -/
theorem exists_bytes_of_getElem?_splitSlots {bytes : List Byte} {k : Nat} {sl : Slot}
    (h : (splitSlots bytes)[k]? = some sl) :
    ∃ b0 b1 b2 b3 b4 b5 b6 b7, (bytes.drop (8 * k)).take 8 = [b0, b1, b2, b3, b4, b5, b6, b7] ∧
      sl = slotOfBytes b0 b1 b2 b3 b4 b5 b6 b7 := by
  induction bytes using splitSlots.induct generalizing k with
  | case1 b0 b1 b2 b3 b4 b5 b6 b7 rest ih =>
    rw [splitSlots] at h
    cases k with
    | zero => exact ⟨b0, b1, b2, b3, b4, b5, b6, b7, rfl, (Option.some.inj h).symm⟩
    | succ k => exact ih h
  | case2 bytes hshort =>
    rw [splitSlots] at h
    · cases h
    · exact hshort

/-! ### The values of the fields -/

section
variable (b0 b1 b2 b3 b4 b5 b6 b7 : Byte)

/-- `dest` is the low nibble of byte 1 (R51). -/
theorem toNat_dest_slotOfBytes : (slotOfBytes b0 b1 b2 b3 b4 b5 b6 b7).dest.toNat = b1.toNat % 16 :=
  BitVec.extractLsb'_toNat 0 4 b1

/-- `src` is the high nibble of byte 1 (R51). -/
theorem toNat_src_slotOfBytes : (slotOfBytes b0 b1 b2 b3 b4 b5 b6 b7).src.toNat = b1.toNat / 16 := by
  have hnibble : (slotOfBytes b0 b1 b2 b3 b4 b5 b6 b7).src.toNat = b1.toNat / 2 ^ 4 % 2 ^ 4 := by
    rw [← Nat.shiftRight_eq_div_pow]
    exact BitVec.extractLsb'_toNat 4 4 b1
  omega

/-- `offset` is the little-endian value of bytes 2 and 3 (R51). -/
theorem toNat_offset_slotOfBytes :
    (slotOfBytes b0 b1 b2 b3 b4 b5 b6 b7).offset.toNat = b2.toNat + 256 * b3.toNat := by
  have hjoined : (slotOfBytes b0 b1 b2 b3 b4 b5 b6 b7).offset.toNat = b3.toNat * 2 ^ 8 + b2.toNat :=
    toNat_append_eq b3 b2
  omega

/-- `imm` is the little-endian value of bytes 4 to 7 (R51). -/
theorem toNat_imm_slotOfBytes :
    (slotOfBytes b0 b1 b2 b3 b4 b5 b6 b7).imm.toNat =
      b4.toNat + 2 ^ 8 * b5.toNat + 2 ^ 16 * b6.toNat + 2 ^ 24 * b7.toNat := by
  have hjoined : (slotOfBytes b0 b1 b2 b3 b4 b5 b6 b7).imm.toNat =
      ((b7.toNat * 2 ^ 8 + b6.toNat) * 2 ^ 8 + b5.toNat) * 2 ^ 8 + b4.toNat := by
    simp only [slotOfBytes, toNat_append_eq]
  omega

end

/-- The signed range of an offset (R51). -/
theorem toInt_off_range (o : Off) : -32768 ≤ o.toInt ∧ o.toInt ≤ 32767 :=
  ⟨BitVec.le_toInt o, Int.le_of_lt_add_one BitVec.toInt_lt⟩

/-- The signed range of an immediate (R51). -/
theorem toInt_imm_range (m : Imm) : -2147483648 ≤ m.toInt ∧ m.toInt ≤ 2147483647 :=
  ⟨BitVec.le_toInt m, Int.le_of_lt_add_one BitVec.toInt_lt⟩

/-- Settles O5: slot `k` is `slotOfBytes` of its eight bytes, whose fields have the values above; the rule's two slots
are evaluated. -/
theorem fieldsOfSlotAreLittleEndian : Obligations.FieldsOfSlotAreLittleEndian := by
  refine ⟨fun bytes prog k sl hprog hk => ?_, ⟨⟨0xb7, 1, 0, 0, 0xfffffffb⟩, by decide⟩,
    ⟨⟨0x55, 1, 2, 0xfffd, 0⟩, by decide⟩⟩
  obtain ⟨-, rfl⟩ := decodeProgram_eq_ok_iff.1 hprog
  obtain ⟨b0, b1, b2, b3, b4, b5, b6, b7, hbytes, rfl⟩ := exists_bytes_of_getElem?_splitSlots hk
  obtain ⟨hofflow, hoffhigh⟩ := toInt_off_range (slotOfBytes b0 b1 b2 b3 b4 b5 b6 b7).offset
  obtain ⟨himmlow, himmhigh⟩ := toInt_imm_range (slotOfBytes b0 b1 b2 b3 b4 b5 b6 b7).imm
  exact ⟨b0, b1, b2, b3, b4, b5, b6, b7, hbytes, rfl, toNat_dest_slotOfBytes .., toNat_src_slotOfBytes ..,
    toNat_offset_slotOfBytes .., toNat_imm_slotOfBytes .., hofflow, hoffhigh, himmlow, himmhigh⟩

end Sys2Proof
end

section
/-!
PROOF. The two terminal statuses end the run for good (spec/40_execution_step.md R71, spec/60_exceptions.md R209).
-/

namespace Sys2Proof.Machine

/-- `Halted` and `Faulted` are the terminal statuses (R17). -/
theorem terminal_iff {st : Status} : st.terminal = true ↔ (∃ c, st = .halted c) ∨ ∃ r, st = .faulted r := by
  cases st <;> simp [Status.terminal]

/-- A step from a terminal status is absorbed (R71): of the four ways a step can go, only that one is open. -/
theorem step_of_terminal {s : State} (hend : s.status.terminal = true) : step s = .next s := by
  rcases step_cases s with ⟨-, habsorbed⟩ | ⟨hrun, -⟩ | ⟨_, _, hrun, -⟩ | ⟨_, _, hrun, -⟩
  · exact habsorbed
  all_goals exact absurd (hrun.symm.trans hend) Bool.false_ne_true

/-- From a terminal status every run, whatever its length, leads to the state it began in and to no other. -/
theorem stepsTo_iff_of_terminal {s t : State} (hend : s.status.terminal = true) (k : Nat) : StepsTo k s t ↔ t = s := by
  induction k with
  | zero => exact Iff.rfl
  | succ k ih =>
    calc StepsTo (k + 1) s t
      _ ↔ ∃ u, step s = .next u ∧ StepsTo k u t := Iff.rfl
      _ ↔ StepsTo k s t := by simp [step_of_terminal hend]
      _ ↔ t = s := ih

/-- Settles O12: `Halted` and `Faulted` are terminal, and a run from a terminal status stays where it is. -/
theorem terminalStatesAbsorb : Obligations.TerminalStatesAbsorb :=
  fun _ _ k hstatus => stepsTo_iff_of_terminal (terminal_iff.2 hstatus) k

end Sys2Proof.Machine
end

section
/-!
PROOF. The one error of the load interface (spec/60_exceptions.md R207): `MisalignedLength`, and then there is no run.
-/

namespace Sys2Proof

/-- The load-time decoder has one error, and it answers that error exactly where slots are not whole (R52, R207). -/
theorem decodeProgram_eq_error_iff {bytes : List Byte} {e : DecodeError} :
    decodeProgram bytes = .error e ↔ bytes.length % 8 ≠ 0 := by
  cases e
  by_cases hlen : bytes.length % 8 = 0
  · simp [hlen, decodeProgram_eq_ok_iff.2 ⟨hlen, rfl⟩]
  · exact iff_of_true (if_neg hlen) hlen

end Sys2Proof

namespace Sys2Proof.Machine

section
variable {progMax : Option Nat} {bytes : List Byte} {resolver : Option (List Imm)}

/-- A load passes on the decoder's error, whatever `PROG_MAX` is, and has that error from nowhere else (R207). -/
theorem load_eq_decode_error_iff {e : DecodeError} :
    load progMax bytes resolver = .error (.decode e) ↔ decodeProgram bytes = .error e := by
  rcases load_cases progMax bytes resolver with ⟨_, hd, h⟩ | ⟨_, hd, -, h⟩ | ⟨_, hd, -, h⟩ <;> simp [h, hd]

/-- A block without a limit loads every program the decoder answers. -/
theorem load_none_of_decodeProgram {prog : List Slot} (h : decodeProgram bytes = .ok prog) :
    load none bytes resolver = .ok (State.init prog resolver) :=
  load_eq_ok_iff.2 ⟨prog, h, acceptsLength_iff.2 nofun, rfl⟩

end

/-- Settles O7: the load has the decoder's error exactly where the decoder has it, and else loads its program. -/
theorem misalignedLengthIsNoRun : Obligations.MisalignedLengthIsNoRun := by
  refine fun bytes resolver => ⟨load_eq_decode_error_iff.trans decodeProgram_eq_error_iff, fun hlen => ?_⟩
  have hdecoded : decodeProgram bytes = .ok (splitSlots bytes) := decodeProgram_eq_ok_iff.2 ⟨hlen, rfl⟩
  exact ⟨_, load_none_of_decodeProgram hdecoded, hdecoded⟩

end Sys2Proof.Machine
end

section
/-!
PROOF. The decoder inverts the encoder (spec/30_encoding.md R53, R56; decision D1).
-/

namespace Sys2Proof

/-- A recognised slot whose fields name registers decodes to its instruction (R74, R75). -/
theorem decode_of_recognise {sl : Slot} {following : Option Slot} {g : Reg → Reg → Instr} {d r : Reg} {i : Instr}
    (hg : recognise sl following = .ok g) (hd : regOfField sl.dest = some d) (hr : regOfField sl.src = some r)
    (hi : g d r = i) : decode sl following = .ok i := by
  simp [decode, hg, hd, hr, hi]

/-- The first slot of an encoding, with whatever slots follow the encoding, decodes to the instruction: the opcode byte is
the instruction's own, and the register fields are those of registers, or zero. -/
theorem decode_encode (i : Instr) (after : List Slot) :
    ∃ sl rest, encode i = sl :: rest ∧ decode sl (rest ++ after).head? = .ok i := by
  cases i with
  | movReg d r | addReg d r | subReg d r | mulReg d r | divReg d r | orReg d r | andReg d r | lshReg d r | rshReg d r
  | arshReg d r | modReg d r | xorReg d r | ldindb d r | ldindh d r | ldindw d r | ldinddw d r | ldxb d r | ldxh d r
  | ldxw d r | ldxdw d r | stxb d r | stxh d r | stxw d r | stxdw d r | jeqReg d r | jgtReg d r | jgeReg d r | jltReg d r
  | jleReg d r | jsetReg d r | jneReg d r | jsgtReg d r | jsgeReg d r | jsltReg d r | jsleReg d r =>
    exact ⟨_, _, rfl, decode_of_recognise rfl (regOfField_fieldOfReg d) (regOfField_fieldOfReg r) rfl⟩
  | movImm d | addImm d | subImm d | mulImm d | divImm d | orImm d | andImm d | lshImm d | rshImm d | arshImm d | negImm d
  | negReg d | modImm d | xorImm d | le16 d | le32 d | le64 d | be16 d | be32 d | be64 d | lddw d | ldabsb d | ldabsh d
  | ldabsw d | ldabsdw d | stb d | sth d | stw d | stdw d | jeqImm d | jgtImm d | jgeImm d | jltImm d | jleImm d
  | jsetImm d | jneImm d | jsgtImm d | jsgeImm d | jsltImm d | jsleImm d =>
    exact ⟨_, _, rfl, decode_of_recognise rfl (regOfField_fieldOfReg d) (regOfField_fieldOfReg 0) rfl⟩
  | ja | call | exit =>
    exact ⟨_, _, rfl, decode_of_recognise rfl (regOfField_fieldOfReg 0) (regOfField_fieldOfReg 0) rfl⟩

/-- Splitting a buffer that starts with the bytes of a program. -/
theorem splitSlots_programBytes_append (slots : List Slot) (rest : List Byte) :
    splitSlots (programBytes slots ++ rest) = slots ++ splitSlots rest := by
  induction slots with
  | nil => rfl
  | cons sl slots ih =>
    rw [programBytes, List.flatMap_cons, List.append_assoc, splitSlots_bytes_append, ← programBytes, ih, List.cons_append]

/-- A buffer that starts with a slot decodes as that slot followed by the next. -/
theorem decodeBytes_of_splitSlots {bytes : List Byte} {sl : Slot} {rest : List Slot} {i : Instr}
    (hsplit : splitSlots bytes = sl :: rest) (hdec : decode sl rest.head? = .ok i) : decodeBytes bytes = some i := by
  rw [decodeBytes, hsplit]
  simp only [hdec]
  rfl

/-- Settles O1: the bytes of an encoding split into its slots, the first of which decodes to the instruction. -/
theorem encodeThenDecode : Obligations.EncodeThenDecode := by
  intro i rest
  obtain ⟨sl, tail, henc, hdec⟩ := decode_encode i (splitSlots rest)
  refine decodeBytes_of_splitSlots ?_ hdec
  rw [encodeBytes, splitSlots_programBytes_append, henc, List.cons_append]

/-- Settles O8: the eight byte sequences, evaluated. -/
theorem decodedWordsOfEachFamily : Obligations.DecodedWordsOfEachFamily := by
  unfold Obligations.DecodedWordsOfEachFamily
  decide

end Sys2Proof
end

section
/-!
PROOF. What the recognition of a slot answers (spec/40_execution_step.md R74, R75; spec/30_encoding.md R56 to R60): one lemma
per check that fails, and the instruction's encoding where none does.
-/

namespace Sys2Proof

open Machine (ignoresDest ignoresSrc ignoresOffset ignoresImm SameUsedFields)

/-! ### The slot an instruction keeps of the slot it was read from -/

/-- The slot with zero in the fields its opcode ignores (R59; log entry 14). -/
def Slot.usedFields (sl : Slot) : Slot :=
  slotOf sl.opcode (if ignoresDest sl.opcode then 0 else sl.dest) (if ignoresSrc sl.opcode then 0 else sl.src)
    (if ignoresOffset sl.opcode then 0 else sl.offset) (if ignoresImm sl.opcode then 0 else sl.imm)

/-- The second slot of an `LDDW` with all but its `imm` zero, and no slot for another opcode (R60). -/
def Slot.usedSecond (sl : Slot) (following : Option Slot) : List Slot :=
  if sl.opcode = 0x18 then ((following.map (·.imm)).map (slotOf 0 0 0 0)).toList else []

/-- `g` is the instruction the slot spells, as a function of its register operands: with those of the slot's own register
fields, its encoding is the used part of the slot. -/
def Slot.Spells (sl : Slot) (following : Option Slot) (g : Reg → Reg → Instr) : Prop :=
  ∀ d r, fieldOfReg d = sl.dest → fieldOfReg r = sl.src → encode (g d r) = sl.usedFields :: sl.usedSecond following

/-! ### Recognition, check by check -/

section
variable {sl : Slot} {following : Option Slot}

/-- An opcode byte that is not one of the 74 is refused (R57). -/
theorem recognise_of_unknown (h : ¬sl.opcodeKnown) : recognise sl following = .error (.unknownOpcode sl.opcode) := by
  unfold recognise
  split
  case h_75 => rfl -- the arm for every other opcode byte
  all_goals
    rename_i hop
    exact absurd (by rw [Slot.opcodeKnown, hop]; decide) h

/-- `LDDW` without a second slot is refused (R60). -/
theorem recognise_of_noSecondSlot (h : ¬sl.secondSlotOk following) :
    recognise sl following = .error (.noSecondSlot sl.opcode) := by
  obtain ⟨op, d, r, o, m⟩ := sl
  obtain ⟨rfl, hnone⟩ : op = 0x18 ∧ following = none := by simpa [Slot.secondSlotOk] using h
  rw [hnone]
  rfl

/-- All that the width selector can do (R58, R137). -/
theorem selectWidth_cases (sl : Slot) (at16 at32 at64 : Reg → Instr) :
    (sl.imm = 16 ∧ selectWidth sl at16 at32 at64 = .ok fun d _ => at16 d) ∨
    (sl.imm = 32 ∧ selectWidth sl at16 at32 at64 = .ok fun d _ => at32 d) ∨
    (sl.imm = 64 ∧ selectWidth sl at16 at32 at64 = .ok fun d _ => at64 d) ∨
    (¬(sl.imm.toInt = 16 ∨ sl.imm.toInt = 32 ∨ sl.imm.toInt = 64) ∧
      selectWidth sl at16 at32 at64 = .error (.badSelector sl.opcode)) := by
  by_cases h16 : sl.imm.toInt = 16
  · exact .inl ⟨BitVec.eq_of_toInt_eq h16, if_pos h16⟩
  by_cases h32 : sl.imm.toInt = 32
  · exact .inr (.inl ⟨BitVec.eq_of_toInt_eq h32, by simp [selectWidth, h32]⟩)
  by_cases h64 : sl.imm.toInt = 64
  · exact .inr (.inr (.inl ⟨BitVec.eq_of_toInt_eq h64, by simp [selectWidth, h64]⟩))
  · exact .inr (.inr (.inr ⟨by simp [h16, h32, h64], by simp [selectWidth, h16, h32, h64]⟩))

/-- The byteswap opcodes leave the choice to the width selector (R58). -/
theorem recognise_byteswap (h : sl.opcode = 0xd4 ∨ sl.opcode = 0xdc) :
    recognise sl following = selectWidth sl .le16 .le32 .le64 ∨
      recognise sl following = selectWidth sl .be16 .be32 .be64 := by
  obtain ⟨op, d, r, o, m⟩ := sl
  rcases h with rfl | rfl
  · exact .inl rfl
  · exact .inr rfl

/-- A byteswap with another selector than 16, 32 and 64 is refused (R58). -/
theorem recognise_of_badSelector (h : ¬sl.selectorOk) : recognise sl following = .error (.badSelector sl.opcode) := by
  obtain ⟨hop, hsel⟩ := Classical.not_imp.1 h
  have hrefused : ∀ at16 at32 at64, selectWidth sl at16 at32 at64 = .error (.badSelector sl.opcode) := by
    intro at16 at32 at64
    rcases selectWidth_cases sl at16 at32 at64 with ⟨hm, -⟩ | ⟨hm, -⟩ | ⟨hm, -⟩ | ⟨-, hw⟩
    · exact absurd (.inl (congrArg BitVec.toInt hm)) hsel
    · exact absurd (.inr (.inl (congrArg BitVec.toInt hm))) hsel
    · exact absurd (.inr (.inr (congrArg BitVec.toInt hm))) hsel
    · exact hw
  rcases recognise_byteswap hop with hr | hr
  · exact hr.trans (hrefused ..)
  · exact hr.trans (hrefused ..)

/-- A byteswap with a good selector is recognised (R130, R137). -/
theorem exists_recognise_byteswap (hop : sl.opcode = 0xd4 ∨ sl.opcode = 0xdc) (h : sl.selectorOk) :
    ∃ g, recognise sl following = .ok g ∧ sl.Spells following g := by
  obtain ⟨op, fd, fr, o, m⟩ := sl
  have hm : m = 16 ∨ m = 32 ∨ m = 64 := by
    rcases h hop with h | h | h
    · exact .inl (BitVec.eq_of_toInt_eq h)
    · exact .inr (.inl (BitVec.eq_of_toInt_eq h))
    · exact .inr (.inr (BitVec.eq_of_toInt_eq h))
  rcases hop with rfl | rfl <;> rcases hm with rfl | rfl | rfl <;> exact ⟨_, rfl, by rintro d r rfl rfl; rfl⟩

/-- A slot that passes the checks of R74 is recognised, as the instruction whose encoding is the used part of the slot: the
opcode map has one arm for each of the 74 opcode bytes (R56). -/
theorem exists_recognise (hknown : sl.opcodeKnown) (hsel : sl.selectorOk) (hsecond : sl.secondSlotOk following) :
    ∃ g, recognise sl following = .ok g ∧ sl.Spells following g := by
  obtain ⟨op, fd, fr, o, m⟩ := sl
  simp only [Slot.opcodeKnown, recognisedOpcodes, List.cons_append, List.nil_append] at hknown
  fin_cases hknown
  on_goal 73 => exact exists_recognise_byteswap (.inr rfl) hsel -- 0xdc, `BE*`
  on_goal 71 => exact exists_recognise_byteswap (.inl rfl) hsel -- 0xd4, `LE*`
  on_goal 6 => -- 0x18, `LDDW`
    obtain ⟨second, rfl⟩ := Option.isSome_iff_exists.1 (hsecond rfl)
    exact ⟨_, rfl, by rintro d r rfl rfl; rfl⟩
  all_goals exact ⟨_, rfl, by rintro d r rfl rfl; rfl⟩

/-! ### Decoding, check by check -/

/-- A slot that is not recognised is refused for that reason, before its register fields are looked at (R208). -/
theorem decode_of_recognise_error {e : Reject} (h : recognise sl following = .error e) :
    decode sl following = .error e := by
  simp [decode, h]

/-- A register field above 10 names no register (R13). -/
theorem regOfField_eq_none_iff {f : RegField} : regOfField f = none ↔ ¬f.toNat ≤ 10 := by
  rw [← regOfField_isSome, Bool.not_eq_true, Option.isSome_eq_false_iff, Option.isNone_iff_eq_none]

/-- A recognised slot whose `dest` names no register is refused for it (R75). -/
theorem decode_of_badDest (hknown : sl.opcodeKnown) (hsel : sl.selectorOk) (hsecond : sl.secondSlotOk following)
    (hdest : ¬sl.destOk) : decode sl following = .error (.badDest sl.dest) := by
  obtain ⟨g, hg, -⟩ := exists_recognise hknown hsel hsecond
  simp [decode, hg, regOfField_eq_none_iff.2 hdest]

/-- A recognised slot whose `dest` names a register and whose `src` names none is refused for `src` (R75). -/
theorem decode_of_badSrc (hknown : sl.opcodeKnown) (hsel : sl.selectorOk) (hsecond : sl.secondSlotOk following)
    (hdest : sl.destOk) (hsrc : ¬sl.srcOk) : decode sl following = .error (.badSrc sl.src) := by
  obtain ⟨g, hg, -⟩ := exists_recognise hknown hsel hsecond
  obtain ⟨d, hd⟩ := Option.isSome_iff_exists.1 ((regOfField_isSome sl.dest).2 hdest)
  simp [decode, hg, hd, regOfField_eq_none_iff.2 hsrc]

/-- A slot that passes every check decodes to the instruction whose encoding is the used part of the slot. -/
theorem exists_decode_of_wellFormed (h : sl.WellFormed following) :
    ∃ i, decode sl following = .ok i ∧ encode i = sl.usedFields :: sl.usedSecond following := by
  obtain ⟨hknown, hsel, hsecond, hdest, hsrc⟩ := h
  obtain ⟨g, hg, hspells⟩ := exists_recognise hknown hsel hsecond
  obtain ⟨d, hd⟩ := Option.isSome_iff_exists.1 ((regOfField_isSome sl.dest).2 hdest)
  obtain ⟨r, hr⟩ := Option.isSome_iff_exists.1 ((regOfField_isSome sl.src).2 hsrc)
  exact ⟨g d r, decode_of_recognise hg hd hr rfl, hspells d r (fieldOfReg_of_regOfField hd) (fieldOfReg_of_regOfField hr)⟩

/-- A slot that decodes passes every check: a check that fails has its own rejection. -/
theorem wellFormed_of_decode {i : Instr} (h : decode sl following = .ok i) : sl.WellFormed following := by
  have hno : ∀ e, decode sl following ≠ .error e := fun e he => nomatch h.symm.trans he
  have hknown : sl.opcodeKnown := by_contra fun hc => hno _ (decode_of_recognise_error (recognise_of_unknown hc))
  have hsel : sl.selectorOk := by_contra fun hc => hno _ (decode_of_recognise_error (recognise_of_badSelector hc))
  have hsecond : sl.secondSlotOk following :=
    by_contra fun hc => hno _ (decode_of_recognise_error (recognise_of_noSecondSlot hc))
  have hdest : sl.destOk := by_contra fun hc => hno _ (decode_of_badDest hknown hsel hsecond hc)
  have hsrc : sl.srcOk := by_contra fun hc => hno _ (decode_of_badSrc hknown hsel hsecond hdest hc)
  exact ⟨hknown, hsel, hsecond, hdest, hsrc⟩

/-- Settles O2: a slot that passes every check decodes, and a check that fails has its own rejection. -/
theorem decodeAcceptsExactlyWellFormed : Obligations.DecodeAcceptsExactlyWellFormed := fun _ _ =>
  ⟨fun ⟨_, h⟩ => wellFormed_of_decode h, fun h => (exists_decode_of_wellFormed h).imp fun _ hi => hi.1⟩

/-! ### Decoding and encoding again -/

/-- The encoding of a decoded instruction is the used part of the slot it was decoded from. -/
theorem encode_of_decode {i : Instr} (h : decode sl following = .ok i) :
    encode i = sl.usedFields :: sl.usedSecond following := by
  obtain ⟨j, hj, henc⟩ := exists_decode_of_wellFormed (wellFormed_of_decode h)
  cases h.symm.trans hj
  exact henc

/-- The used second slot, if there is one, has the `imm` of the slot that followed (R60). -/
theorem usedSecond_cases (sl : Slot) (following : Option Slot) :
    sl.usedSecond following = [] ∨
      ∃ second e2, following = some second ∧ sl.usedSecond following = [e2] ∧ e2.imm = second.imm := by
  by_cases hop : sl.opcode = 0x18
  · cases following with
    | none => exact .inl (if_pos hop)
    | some second => exact .inr ⟨second, slotOf 0 0 0 0 second.imm, rfl, if_pos hop, rfl⟩
  · exact .inl (if_neg hop)

/-- Settles O3: the encoding is the used part of the slot, which keeps or zeroes each field. -/
theorem reencodingKeepsOrZeroesEachField : Obligations.ReencodingKeepsOrZeroesEachField := fun sl following _ h =>
  ⟨sl.usedFields, sl.usedSecond following, encode_of_decode h, rfl, (ite_eq_or_eq _ _ _).symm, (ite_eq_or_eq _ _ _).symm,
    (ite_eq_or_eq _ _ _).symm, (ite_eq_or_eq _ _ _).symm, usedSecond_cases sl following⟩

end

/-! ### Fields that do not matter -/

/-- Two instructions with one encoding are one: decoding gives it back. -/
theorem encode_injective {i j : Instr} (h : encode i = encode j) : i = j := by
  have hi := encodeThenDecode i []
  rw [encodeBytes, h, ← encodeBytes, encodeThenDecode j []] at hi
  exact (Option.some.inj hi).symm

section
variable {a b : Slot} {fa fb : Option Slot}

/-- A field that is kept where `ignored` is false is zeroed alike or kept alike. -/
theorem ite_ignored_congr {n : Nat} {ignored : Bool} {x y : BitVec n} (h : ignored = false → x = y) :
    (if ignored then 0 else x) = (if ignored then 0 else y) := by
  cases ignored with
  | false => exact h rfl
  | true => rfl

/-- Slots that differ in ignored fields only have the same used part (R59). -/
theorem usedFields_congr (h : SameUsedFields a b) : a.usedFields = b.usedFields := by
  obtain ⟨hop, -, -, -, -, hoffset, himm, hsrc, hdest⟩ := h
  unfold Slot.usedFields
  rw [← hop, ite_ignored_congr hdest, ite_ignored_congr hsrc, ite_ignored_congr hoffset, ite_ignored_congr himm]

/-- Only the `imm` of the slot after an `LDDW` is used (R60). -/
theorem usedSecond_congr (hop : a.opcode = b.opcode) (himm : a.opcode = 0x18 → fa.map (·.imm) = fb.map (·.imm)) :
    a.usedSecond fa = b.usedSecond fb := by
  unfold Slot.usedSecond
  rw [← hop]
  by_cases h : a.opcode = 0x18
  · rw [if_pos h, if_pos h, himm h]
  · rw [if_neg h, if_neg h]

/-- The selector of a byteswap is no ignored field (R58, R59). -/
theorem selectorOk_congr (h : SameUsedFields a b) : a.selectorOk ↔ b.selectorOk := by
  obtain ⟨hop, -, -, -, -, -, himm, -, -⟩ := h
  unfold Slot.selectorOk
  rw [← hop]
  refine forall_congr' fun hswap => ?_
  have hused : ignoresImm a.opcode = false := by
    rcases hswap with h | h <;> rw [h] <;> rfl
  rw [himm hused]

/-- Settles O4: the two slots pass the same checks; where one fails they have the same rejection, and else the same used
part, which is the encoding of the instruction. -/
theorem ignoredFieldsDoNotMatter : Obligations.IgnoredFieldsDoNotMatter := by
  intro a b fa fb hsame hsome himm
  have hselector := selectorOk_congr hsame
  have hfields := usedFields_congr hsame
  obtain ⟨hop, hda, hdb, hra, hrb, -⟩ := hsame
  by_cases hknown : a.opcodeKnown
  swap
  · have hb : ¬b.opcodeKnown := by rwa [Slot.opcodeKnown, ← hop]
    rw [decode_of_recognise_error (recognise_of_unknown hknown), decode_of_recognise_error (recognise_of_unknown hb), hop]
  by_cases hsel : a.selectorOk
  swap
  · rw [decode_of_recognise_error (recognise_of_badSelector hsel),
      decode_of_recognise_error (recognise_of_badSelector (hselector.not.1 hsel)), hop]
  by_cases hsecond : a.secondSlotOk fa
  swap
  · have hb : ¬b.secondSlotOk fb := by rwa [Slot.secondSlotOk, ← hop, ← hsome]
    rw [decode_of_recognise_error (recognise_of_noSecondSlot hsecond),
      decode_of_recognise_error (recognise_of_noSecondSlot hb), hop]
  have hwf : b.WellFormed fb := by
    refine ⟨?_, hselector.1 hsel, ?_, hdb, hrb⟩
    · rwa [Slot.opcodeKnown, ← hop]
    · rwa [Slot.secondSlotOk, ← hop, ← hsome]
  obtain ⟨i, hi, hei⟩ := exists_decode_of_wellFormed ⟨hknown, hsel, hsecond, hda, hra⟩
  obtain ⟨j, hj, hej⟩ := exists_decode_of_wellFormed hwf
  have henc : encode i = encode j := by rw [hei, hej, hfields, usedSecond_congr hop himm]
  rw [hi, hj, encode_injective henc]

end

end Sys2Proof
end

section
/-!
PROOF. A buffer and its slots (spec/30_encoding.md R50 to R53).
-/

namespace Sys2Proof

/-! ### Bytes to slots and back -/

/-- The bytes of a slot read from eight bytes are those bytes (R53). -/
theorem bytes_slotOfBytes (b0 b1 b2 b3 b4 b5 b6 b7 : Byte) :
    (slotOfBytes b0 b1 b2 b3 b4 b5 b6 b7).bytes = [b0, b1, b2, b3, b4, b5, b6, b7] := by
  have hbyte : ∀ {x y : Byte}, x.toNat = y.toNat → x = y := BitVec.eq_of_toNat_eq
  have hdest := toNat_dest_slotOfBytes b0 b1 b2 b3 b4 b5 b6 b7
  have hsrc := toNat_src_slotOfBytes b0 b1 b2 b3 b4 b5 b6 b7
  have hoffset := toNat_offset_slotOfBytes b0 b1 b2 b3 b4 b5 b6 b7
  have himm := toNat_imm_slotOfBytes b0 b1 b2 b3 b4 b5 b6 b7
  simp only [Slot.bytes, List.cons.injEq, and_true]
  refine ⟨rfl, hbyte ?_, hbyte ?_, hbyte ?_, hbyte ?_, hbyte ?_, hbyte ?_, hbyte ?_⟩
  · rw [toNat_append_eq, hdest, hsrc]
    omega
  all_goals
    rw [toNat_byteOf]
    omega

/-- Encoding the slots of a whole buffer gives the buffer back (R53). -/
theorem programBytes_splitSlots {bytes : List Byte} (h : bytes.length % 8 = 0) :
    programBytes (splitSlots bytes) = bytes := by
  induction bytes using splitSlots.induct with
  | case1 b0 b1 b2 b3 b4 b5 b6 b7 rest ih =>
    have hrest : rest.length % 8 = 0 := by
      simp only [List.length_cons] at h
      omega
    rw [splitSlots, programBytes, List.flatMap_cons, ← programBytes, ih hrest, bytes_slotOfBytes]
    rfl
  | case2 bytes hshort =>
    match bytes with
    | [] => rfl
    | [_] | [_, _] | [_, _, _] | [_, _, _, _] | [_, _, _, _, _] | [_, _, _, _, _, _] | [_, _, _, _, _, _, _] => simp at h
    | b0 :: b1 :: b2 :: b3 :: b4 :: b5 :: b6 :: b7 :: rest => exact (hshort _ _ _ _ _ _ _ _ _ rfl).elim

/-- A slot has eight bytes (R50). -/
theorem length_bytes (sl : Slot) : sl.bytes.length = 8 := rfl

/-- The number of bytes of a program (R52). -/
theorem length_programBytes (slots : List Slot) : (programBytes slots).length = 8 * slots.length := by
  induction slots with
  | nil => rfl
  | cons sl slots ih =>
    rw [programBytes, List.flatMap_cons, ← programBytes, List.length_append, length_bytes, ih, List.length_cons]
    omega

/-- A buffer of `8n` bytes has `n` slots (R52). -/
theorem length_splitSlots {bytes : List Byte} {n : Nat} (h : bytes.length = 8 * n) : (splitSlots bytes).length = n := by
  have hlen := length_programBytes (splitSlots bytes)
  rw [programBytes_splitSlots (by omega)] at hlen
  omega

/-- Reading the eight bytes of a slot gives the slot (R53). -/
theorem splitSlots_bytes (sl : Slot) : splitSlots sl.bytes = [sl] := by
  rw [← List.append_nil sl.bytes, splitSlots_bytes_append]
  rfl

/-- Slot `k` of a buffer has the buffer's eight bytes from `8k` on (R50). -/
theorem bytes_of_getElem?_splitSlots {bytes : List Byte} {k : Nat} {sl : Slot} (h : (splitSlots bytes)[k]? = some sl) :
    sl.bytes = (bytes.drop (8 * k)).take 8 := by
  obtain ⟨b0, b1, b2, b3, b4, b5, b6, b7, hbytes, rfl⟩ := exists_bytes_of_getElem?_splitSlots h
  rw [hbytes, bytes_slotOfBytes]

/-- The eight bytes of the encoder as numbers (R53). -/
theorem map_toNat_bytes (sl : Slot) :
    sl.bytes.map BitVec.toNat =
      [sl.opcode.toNat, sl.src.toNat * 16 + sl.dest.toNat, sl.offset.toNat % 256, sl.offset.toNat / 256 % 256,
       sl.imm.toNat % 256, sl.imm.toNat / 2 ^ 8 % 256, sl.imm.toNat / 2 ^ 16 % 256, sl.imm.toNat / 2 ^ 24 % 256] := by
  simp only [Slot.bytes, List.map_cons, List.map_nil, toNat_append_eq, toNat_byteOf]
  norm_num

/-- Settles O6: splitting a buffer into slots and joining the bytes of slots are inverse to each other. -/
theorem programRoundTrip : Obligations.ProgramRoundTrip := by
  refine ⟨fun bytes n hlen => ?_, fun sl => ?_, map_toNat_bytes⟩
  · have hwhole : bytes.length % 8 = 0 := by omega
    refine ⟨splitSlots bytes, decodeProgram_eq_ok_iff.2 ⟨hwhole, rfl⟩, length_splitSlots hlen,
      programBytes_splitSlots hwhole, fun k sl hk => ?_⟩
    have hbytes := bytes_of_getElem?_splitSlots hk
    exact ⟨hbytes, hbytes ▸ splitSlots_bytes sl⟩
  · exact decodeProgram_eq_ok_iff.2 ⟨by rw [length_bytes], splitSlots_bytes sl⟩

end Sys2Proof

namespace Sys2Proof.Machine

/-- Settles O55: a whole buffer decodes to its slots, whose number `PROG_MAX` admits or not; another buffer has the
decoder's error. -/
theorem loadAcceptsUpToProgMax : Obligations.LoadAcceptsUpToProgMax := by
  intro progMax bytes resolver n
  have hdec : bytes.length = 8 * n → decodeProgram bytes = .ok (splitSlots bytes) :=
    fun hlen => decodeProgram_eq_ok_iff.2 ⟨by omega, rfl⟩
  refine ⟨fun hlen hmax => ?_, fun hlen hmax => ?_, fun hlen => ?_⟩
  · have hn := length_splitSlots hlen
    refine ⟨_, hdec hlen, hn, load_eq_ok_iff.2 ⟨_, hdec hlen, acceptsLength_iff.2 ?_, rfl⟩⟩
    rwa [hn]
  · obtain ⟨m, rfl, hm⟩ := hmax
    have hn := length_splitSlots hlen
    simp [load, hdec hlen, hn, acceptsLength, hm]
  · exact load_eq_decode_error_iff.2 (decodeProgram_eq_error_iff.2 hlen)

end Sys2Proof.Machine
end

section
/-!
PROOF. The step (spec/40_execution_step.md R70 to R79): which of its ways it goes, and what each leaves unchanged
(spec/60_exceptions.md R210, R211, R214).
-/

namespace Sys2Proof.Machine

/-! ### One equation for each way of a step -/

section
variable {s : State} {sl : Slot}

/-- Past the end of the program a step halts (R72). -/
theorem step_of_end (hrun : s.status.terminal = false) (hend : s.prog.length ≤ s.pc) :
    step s = .next (s.setStatus (.halted (s.readReg 0))) := by
  have hnone : s.prog[s.pc]? = none := List.getElem?_eq_none hend
  rcases step_cases s with ⟨hterm, -⟩ | ⟨-, -, h⟩ | ⟨_, _, -, hsl, -⟩ | ⟨_, _, -, hsl, -⟩
  · cases hrun.symm.trans hterm
  · exact h
  · cases hnone.symm.trans hsl
  · cases hnone.symm.trans hsl

/-- At a slot that is rejected a step takes the trap of the rejection (R74, R75). -/
theorem step_of_reject {e : Reject} (hrun : s.status.terminal = false) (hsl : s.prog[s.pc]? = some sl)
    (hdec : decode sl s.prog[s.pc + 1]? = .error e) : step s = .next (s.setStatus (.faulted (trapOfReject e))) := by
  rcases step_cases s with ⟨hterm, -⟩ | ⟨-, hend, -⟩ | ⟨_, _, -, hsl', hdec', h⟩ | ⟨_, _, -, hsl', hdec', -⟩
  · cases hrun.symm.trans hterm
  · cases hsl.symm.trans (List.getElem?_eq_none hend)
  · cases hsl.symm.trans hsl'
    cases hdec.symm.trans hdec'
    exact h
  · cases hsl.symm.trans hsl'
    cases hdec.symm.trans hdec'

/-- At a slot that decodes a step executes its instruction (R76). -/
theorem step_of_decode {i : Instr} (hrun : s.status.terminal = false) (hsl : s.prog[s.pc]? = some sl)
    (hdec : decode sl s.prog[s.pc + 1]? = .ok i) : step s = exec i (s.setStatus .running) := by
  rcases step_cases s with ⟨hterm, -⟩ | ⟨-, hend, -⟩ | ⟨_, _, -, hsl', hdec', -⟩ | ⟨_, _, -, hsl', hdec', h⟩
  · cases hrun.symm.trans hterm
  · cases hsl.symm.trans (List.getElem?_eq_none hend)
  · cases hsl.symm.trans hsl'
    cases hdec.symm.trans hdec'
  · cases hsl.symm.trans hsl'
    cases hdec.symm.trans hdec'
    exact h

end

/-- Settles O9: the fourth way of a step. -/
theorem stepRunsTheDecodedInstruction : Obligations.StepRunsTheDecodedInstruction := fun _ _ _ => step_of_decode

/-- Settles O14: in both cases the step begins by setting the status to `Running`. -/
theorem readyAndRunningStepAlike : Obligations.ReadyAndRunningStepAlike := fun s =>
  calc step (s.setStatus .ready)
    _ = runSlot exec ((s.setStatus .ready).setStatus .running) := rfl
    _ = runSlot exec ((s.setStatus .running).setStatus .running) := by rw [setStatus_setStatus, setStatus_setStatus]
    _ = step (s.setStatus .running) := rfl

/-! ### A step on the bytes that were loaded -/

/-- Without its first eight bytes a buffer has lost its first slot, if it had one (R50). -/
theorem splitSlots_drop_eight (bytes : List Byte) : splitSlots (bytes.drop 8) = (splitSlots bytes).tail := by
  match bytes with
  | [] | [_] | [_, _] | [_, _, _] | [_, _, _, _] | [_, _, _, _, _] | [_, _, _, _, _, _] | [_, _, _, _, _, _, _] => rfl
  | _ :: _ :: _ :: _ :: _ :: _ :: _ :: _ :: _ => rfl

/-- The slots of a buffer from byte `8k` on are its slots from slot `k` on (R50). -/
theorem splitSlots_drop (bytes : List Byte) (k : Nat) : splitSlots (bytes.drop (8 * k)) = (splitSlots bytes).drop k := by
  induction k with
  | zero => rfl
  | succ k ih => rw [Nat.mul_succ, ← List.drop_drop, splitSlots_drop_eight, ih, List.tail_drop]

/-- Where the decoder reads an instruction from a buffer, the buffer's first slot decodes to it, given the next. -/
theorem exists_slot_of_decodeBytes {bytes : List Byte} {i : Instr} (h : decodeBytes bytes = some i) :
    ∃ sl rest, splitSlots bytes = sl :: rest ∧ decode sl rest.head? = .ok i := by
  cases hsplit : splitSlots bytes with
  | nil => simp [decodeBytes, hsplit] at h
  | cons sl rest =>
    refine ⟨sl, rest, rfl, ?_⟩
    cases hdec : decode sl rest.head? with
    | error e => simp [decodeBytes, hsplit, hdec, Except.toOption] at h
    | ok j => simpa [decodeBytes, hsplit, hdec, Except.toOption] using h

/-- Settles O10: the slots from `pc` on are those of the loaded bytes from `8 * pc` on. -/
theorem stepRunsTheLoadedBytes : Obligations.StepRunsTheLoadedBytes := by
  intro progMax bytes resolver s0 s i hload hprog hrun hbytes
  obtain ⟨prog, hdecoded, -, rfl⟩ := load_eq_ok_iff.1 hload
  obtain ⟨-, rfl⟩ := decodeProgram_eq_ok_iff.1 hdecoded
  obtain ⟨sl, rest, hsplit, hdec⟩ := exists_slot_of_decodeBytes hbytes
  rw [init_prog] at hprog
  rw [splitSlots_drop, ← hprog] at hsplit
  have hsl : s.prog[s.pc]? = some sl := by rw [← List.head?_drop, hsplit, List.head?_cons]
  have hnext : s.prog[s.pc + 1]? = rest.head? := by
    rw [← List.head?_drop, ← List.tail_drop, hsplit, List.tail_cons]
  exact step_of_decode hrun hsl (hnext ▸ hdec)

/-! ### The checks of a slot, in their order -/

/-- A slot that fails a check of R74 is rejected, and every such rejection is the trap `InvalidOpcode` (R201). -/
theorem exists_reject_of_badOpcode {sl : Slot} {following : Option Slot}
    (h : ¬(sl.opcodeKnown ∧ sl.selectorOk ∧ sl.secondSlotOk following)) :
    ∃ e, decode sl following = .error e ∧ trapOfReject e = .invalidOpcode sl.opcode := by
  by_cases hknown : sl.opcodeKnown
  · by_cases hsel : sl.selectorOk
    · have hsecond : ¬sl.secondSlotOk following := fun hc => h ⟨hknown, hsel, hc⟩
      exact ⟨_, decode_of_recognise_error (recognise_of_noSecondSlot hsecond), rfl⟩
    · exact ⟨_, decode_of_recognise_error (recognise_of_badSelector hsel), rfl⟩
  · exact ⟨_, decode_of_recognise_error (recognise_of_unknown hknown), rfl⟩

/-- Settles O11: a slot that fails a check has that check's rejection, and the rejection its trap. -/
theorem checksTrapInOrder : Obligations.ChecksTrapInOrder := by
  intro s sl hrun hsl
  have trap : ∀ {e : Reject}, decode sl s.prog[s.pc + 1]? = .error e → StepTakesTrap s (trapOfReject e) :=
    fun hdec => ⟨_, step_of_reject hrun hsl hdec, rfl, onlyStatus_setStatus s _⟩
  refine ⟨fun hno => ?_, fun ⟨hknown, hsel, hsecond⟩ hdest => ?_, fun ⟨hknown, hsel, hsecond⟩ hdest hsrc => ?_⟩
  · obtain ⟨e, hdec, htrap⟩ := exists_reject_of_badOpcode hno
    exact htrap ▸ trap hdec
  · exact trap (decode_of_badDest hknown hsel hsecond hdest)
  · exact trap (decode_of_badSrc hknown hsel hsecond hdest hsrc)

/-- The trap of a rejected slot has a payload of the table of R200. -/
theorem trapOfReject_legal {sl : Slot} {following : Option Slot} {e : Reject} (h : decode sl following = .error e) :
    (trapOfReject e).legal := by
  by_cases hop : sl.opcodeKnown ∧ sl.selectorOk ∧ sl.secondSlotOk following
  · obtain ⟨hknown, hsel, hsecond⟩ := hop
    by_cases hdest : sl.destOk
    · by_cases hsrc : sl.srcOk
      · obtain ⟨i, hi, -⟩ := exists_decode_of_wellFormed ⟨hknown, hsel, hsecond, hdest, hsrc⟩
        cases h.symm.trans hi
      · cases h.symm.trans (decode_of_badSrc hknown hsel hsecond hdest hsrc)
        exact Nat.lt_of_not_le hsrc
    · cases h.symm.trans (decode_of_badDest hknown hsel hsecond hdest)
      exact Nat.lt_of_not_le hdest
  · obtain ⟨e', he', htrap⟩ := exists_reject_of_badOpcode hop
    cases h.symm.trans he'
    exact htrap ▸ trivial

/-! ### Every instruction and every step answers -/

/-- `updateRegUnlessZero` always answers. -/
theorem updateRegUnlessZero_answers (d : Reg) (f : Word → Word → Word) (b : Word) (s : State) :
    ∃ t, updateRegUnlessZero d f b s = .next t := by
  by_cases hb : b = 0
  · exact ⟨_, if_pos hb⟩
  · exact ⟨_, if_neg hb⟩

/-- `loadReg` always answers. -/
theorem loadReg_answers (d : Reg) (addr : Word) (w : Width) (s : State) : ∃ t, loadReg d addr w s = .next t := by
  rcases memRead_cases s.mem addr w with ⟨-, h⟩ | ⟨-, h⟩
  · exact ⟨_, by rw [loadReg, h]; rfl⟩
  · exact ⟨_, by rw [loadReg, h]; rfl⟩

/-- `storeMem` always answers. -/
theorem storeMem_answers (addr : Word) (w : Width) (v : Word) (s : State) : ∃ t, storeMem addr w v s = .next t := by
  rcases memWrite_cases s.mem addr w v with ⟨-, h⟩ | ⟨-, h⟩
  · exact ⟨_, by rw [storeMem, h]⟩
  · exact ⟨_, by rw [storeMem, h]; rfl⟩

/-- `jumpTo` always answers. -/
theorem jumpTo_answers (target : Int) (s : State) : ∃ t, jumpTo target s = .next t := by
  by_cases h : target < 0
  · exact ⟨_, if_pos h⟩
  · exact ⟨_, if_neg h⟩

/-- `jumpIf` always answers. -/
theorem jumpIf_answers (taken : Bool) (o : Off) (s : State) : ∃ t, jumpIf taken o s = .next t := by
  cases taken with
  | true => exact jumpTo_answers _ s
  | false => exact ⟨_, rfl⟩

/-- A call always answers. -/
theorem execCall_answers (m : Imm) (s : State) : ∃ t, execCall m s = .next t := by
  unfold execCall
  cases s.resolver with
  | none => exact ⟨_, rfl⟩
  | some ids =>
    by_cases hm : m ∈ ids
    · exact ⟨_, if_pos hm⟩
    · exact ⟨_, if_neg hm⟩

/-- Every instruction answers a next state in every state (U19). -/
theorem exec_answers (i : Instr) (s : State) : ∃ t, exec i s = .next t := by
  cases i with
  | divImm | divReg | modImm | modReg => exact updateRegUnlessZero_answers _ _ _ s
  | ldabsb | ldabsh | ldabsw | ldabsdw | ldindb | ldindh | ldindw | ldinddw | ldxb | ldxh | ldxw | ldxdw =>
    exact loadReg_answers _ _ _ s
  | stb | sth | stw | stdw | stxb | stxh | stxw | stxdw => exact storeMem_answers _ _ _ s
  | ja => exact jumpTo_answers _ s
  | jeqImm | jeqReg | jgtImm | jgtReg | jgeImm | jgeReg | jltImm | jltReg | jleImm | jleReg | jsetImm | jsetReg
  | jneImm | jneReg | jsgtImm | jsgtReg | jsgeImm | jsgeReg | jsltImm | jsltReg | jsleImm | jsleReg =>
    exact jumpIf_answers _ _ s
  | call m => exact execCall_answers m s
  | _ => exact ⟨_, rfl⟩ -- a register written, or `EXIT`

end Sys2Proof.Machine
end

section
/-!
PROOF. How an instruction and a step can end (spec/60_exceptions.md R200 to R214; spec/40_execution_step.md R70 to R79), and
the invariant of the machine.
-/

namespace Sys2Proof.Machine

/-! ### How an instruction ends -/

/-- An instruction completes with the status kept, halts as `EXIT`, or takes its own trap; in the first two cases no trap
of its own applies. -/
theorem exec_status_cases {i : Instr} {s t : State} (h : exec i s = .next t) :
    ((∀ r, ¬ownTrap i s r) ∧ (t.status = s.status ∨ (i = .exit ∧ t = s.setStatus (.halted (s.readReg 0))))) ∨
    ∃ r, ownTrap i s r ∧ t = s.setStatus (.faulted r) := by
  rcases exec_next h with ⟨hno, hdone⟩ | htrap
  · refine .inl ⟨hno, ?_⟩
    rcases hdone with ⟨d, v, -, -, rfl | ⟨rfl, -⟩⟩ | ⟨addr, w, v, -, -, -, -, rfl⟩ | ⟨p, -, -, -, rfl⟩ | hexit
    · exact .inl rfl
    · exact .inl rfl
    · exact .inl rfl
    · exact .inl rfl
    · exact .inr hexit
  · exact .inr htrap

/-- Settles O13: of the ways of a step, the first keeps a terminal status, and the others end as the instruction does. -/
theorem everyStepAnswers : Obligations.EveryStepAnswers := by
  intro s
  rcases step_cases s with ⟨hterm, h⟩ | ⟨-, -, h⟩ | ⟨sl, e, -, -, -, h⟩ | ⟨sl, i, -, -, -, h⟩
  · exact ⟨s, h, fun hrun => nomatch hterm.symm.trans hrun⟩
  · exact ⟨_, h, fun _ => .inr (.inl ⟨_, rfl⟩)⟩
  · exact ⟨_, h, fun _ => .inr (.inr ⟨_, rfl⟩)⟩
  · obtain ⟨t, ht⟩ := exec_answers i (s.setStatus .running)
    refine ⟨t, h.trans ht, fun _ => ?_⟩
    rcases exec_status_cases ht with ⟨-, hst | ⟨-, rfl⟩⟩ | ⟨r, -, rfl⟩
    · exact .inl hst
    · exact .inr (.inl ⟨_, rfl⟩)
    · exact .inr (.inr ⟨_, rfl⟩)

/-! ### The end of the program and `EXIT` -/

/-- A block accepts the empty program whatever its `PROG_MAX` (D17). -/
theorem load_empty (progMax : Option Nat) (resolver : Option (List Imm)) :
    load progMax [] resolver = .ok (State.init [] resolver) :=
  load_eq_ok_iff.2 ⟨[], rfl, acceptsLength_iff.2 fun m _ => Nat.zero_le m, rfl⟩

/-- Settles O15: the second way of a step; the empty program ends at slot 0, where `x[0]` is still 0. -/
theorem fallsOffTheEnd : Obligations.FallsOffTheEnd := by
  refine ⟨fun s hrun hend => ⟨_, step_of_end hrun hend, rfl, onlyStatus_setStatus s _⟩, fun progMax resolver => ?_⟩
  refine ⟨_, _, load_empty progMax resolver, step_of_end rfl (Nat.le_refl 0), ?_⟩
  rw [setStatus_status, readReg_init]

/-- A step that halts does so past the end or at an `EXIT`, with `x[0]`, and changes the status only (R72, R196, R214). -/
theorem step_halted {s t : State} {c : Word} (hrun : s.status.terminal = false) (h : step s = .next t)
    (ht : t.status = .halted c) :
    t = s.setStatus (.halted (s.readReg 0)) ∧ (s.prog.length ≤ s.pc ∨
      ∃ sl, s.prog[s.pc]? = some sl ∧ decode sl s.prog[s.pc + 1]? = .ok .exit) := by
  rcases step_cases s with ⟨hterm, -⟩ | ⟨-, hend, hs⟩ | ⟨sl, e, -, -, -, hs⟩ | ⟨sl, i, -, hsl, hdec, hs⟩
  · cases hrun.symm.trans hterm
  · cases hs.symm.trans h
    exact ⟨rfl, .inl hend⟩
  · cases hs.symm.trans h
    cases ht
  · rcases exec_status_cases (hs.symm.trans h) with ⟨-, hst | ⟨rfl, rfl⟩⟩ | ⟨r, -, rfl⟩
    · cases hst.symm.trans ht
    · exact ⟨rfl, .inr ⟨sl, hsl, hdec⟩⟩
    · cases ht

/-- Settles O16: `step_halted` is the one direction, the way of the step at the end and at an `EXIT` the other. -/
theorem haltsInTwoPlacesOnly : Obligations.HaltsInTwoPlacesOnly := by
  intro s t c hrun h
  refine ⟨⟨fun ht => ?_, ?_⟩, fun ht => ?_⟩
  · obtain ⟨rfl, hplace⟩ := step_halted hrun h ht
    cases ht
    exact ⟨rfl, hplace⟩
  · rintro ⟨rfl, hend | ⟨sl, hsl, hdec⟩⟩
    · cases (step_of_end hrun hend).symm.trans h
      rfl
    · cases (step_of_decode hrun hsl hdec).symm.trans h
      rfl
  · obtain ⟨rfl, -⟩ := step_halted hrun h ht
    exact onlyStatus_setStatus s _

/-! ### Traps -/

/-- An instruction's own trap has a payload of the table of R200. -/
theorem ownTrap_legal {i : Instr} {s : State} {r : Trap} (h : ownTrap i s r) : r.legal := by
  cases r with
  | invalidOpcode | invalidRegister => exact h.elim
  | memoryFault A w =>
    obtain ⟨addr, -, rfl, hout⟩ := h
    exact ⟨BitVec.le_toInt addr, BitVec.toInt_lt, hout⟩
  | divisionByZero => trivial
  | unsupportedCall id =>
    obtain ⟨m, -, rfl, -⟩ := h
    exact ⟨BitVec.le_toInt m, BitVec.toInt_lt⟩
  | invalidJumpTarget target =>
    obtain ⟨o, -, rfl, hneg⟩ := h
    obtain ⟨hlow, -⟩ := toInt_off_range o
    exact ⟨by omega, by omega⟩

/-- A step that traps does so at a slot of the program, with a legal reason, and changes the status only (R210, R211). -/
theorem step_faulted {s t : State} {r : Trap} (hrun : s.status.terminal = false) (h : step s = .next t)
    (ht : t.status = .faulted r) : t = s.setStatus (.faulted r) ∧ s.pc < s.prog.length ∧ r.legal := by
  rcases step_cases s with ⟨hterm, -⟩ | ⟨-, -, hs⟩ | ⟨sl, e, -, hsl, hdec, hs⟩ | ⟨sl, i, -, hsl, -, hs⟩
  · cases hrun.symm.trans hterm
  · cases hs.symm.trans h
    cases ht
  · cases hs.symm.trans h
    cases ht
    exact ⟨rfl, (List.getElem?_eq_some_iff.1 hsl).1, trapOfReject_legal hdec⟩
  · rcases exec_status_cases (hs.symm.trans h) with ⟨-, hst | ⟨-, rfl⟩⟩ | ⟨r', hown, rfl⟩
    · cases hst.symm.trans ht
    · cases ht
    · cases ht
      exact ⟨rfl, (List.getElem?_eq_some_iff.1 hsl).1, ownTrap_legal hown⟩

/-- Settles O17: the frame of `step_faulted`. -/
theorem trapsChangeOnlyTheStatus : Obligations.TrapsChangeOnlyTheStatus := by
  intro s t r hrun h ht
  obtain ⟨rfl, hpc, -⟩ := step_faulted hrun h ht
  exact ⟨onlyStatus_setStatus s _, hpc⟩

/-- The four instructions that divide are `updateRegUnlessZero` with their divisor as operand (R100). -/
theorem exec_of_divisor {i : Instr} {s : State} {b : Word} (h : divisor i s = some b) :
    ∃ d f, exec i s = updateRegUnlessZero d f b s := by
  cases i with
  | divImm d | divReg d | modImm d | modReg d =>
    cases h
    exact ⟨d, _, rfl⟩
  | _ => cases h

/-- A conditional jump whose condition holds jumps to its target (R170). -/
theorem jumpIf_of_taken {taken : Bool} {o q : Off} {s : State} (h : (if taken then some o else none) = some q) :
    jumpIf taken o s = jumpTo (jumpTarget q s) s := by
  cases taken with
  | true =>
    cases h
    rfl
  | false => cases h

/-- A jump that is taken goes to its target (R171). -/
theorem exec_of_takenOffset {i : Instr} {s : State} {o : Off} (h : takenOffset i s = some o) :
    exec i s = jumpTo (jumpTarget o s) s := by
  cases i with
  | ja =>
    cases h
    rfl
  | jeqImm | jeqReg | jgtImm | jgtReg | jgeImm | jgeReg | jltImm | jltReg | jleImm | jleReg | jsetImm | jsetReg
  | jneImm | jneReg | jsgtImm | jsgtReg | jsgeImm | jsgeReg | jsltImm | jsltReg | jsleImm | jsleReg =>
    exact jumpIf_of_taken h
  | _ => cases h

/-- A call that no resolver answers raises its trap (R195). -/
theorem exec_call_of_unresolved {m : Imm} {s : State} (h : unresolved m s) :
    exec (.call m) s = raiseTrap (.unsupportedCall m.toInt) s := by
  obtain ⟨t, ht⟩ := execCall_answers m s
  rcases execCall_next ht with ⟨ids, hids, hm, -⟩ | ⟨-, rfl⟩
  · exact absurd hm (h ids hids)
  · exact ht

/-- An instruction takes the trap the table of R200 gives it. -/
theorem takesTrap_of_ownTrap {i : Instr} {s : State} {r : Trap} (h : ownTrap i s r) : TakesTrap i s r := by
  cases r with
  | invalidOpcode | invalidRegister => exact h.elim
  | memoryFault A w =>
    obtain ⟨addr, hacc, rfl, hout⟩ := h
    exact takesTrap_of_not_admitted hacc hout
  | divisionByZero =>
    obtain ⟨d, f, hexec⟩ := exec_of_divisor h
    exact takesTrap_unlessZero hexec rfl
  | unsupportedCall id =>
    obtain ⟨m, rfl, rfl, hun⟩ := h
    exact takesTrap_raiseTrap (exec_call_of_unresolved hun)
  | invalidJumpTarget target =>
    obtain ⟨o, hjump, rfl, hneg⟩ := h
    exact takesTrap_jumpTo (exec_of_takenOffset hjump) hneg

/-- Settles O18: `ownTrap_of_faulted` is the one direction, `takesTrap_of_ownTrap` the other. -/
theorem ownTrapsByTheTable : Obligations.OwnTrapsByTheTable := by
  refine fun i s t r hrun h => ⟨ownTrap_of_faulted h hrun, fun hown => ?_⟩
  obtain ⟨u, hu, hfaulted, -⟩ := takesTrap_of_ownTrap hown
  cases h.symm.trans hu
  exact hfaulted

/-- Settles O31: the trap of an access that is not admitted, for the instruction and for a 4-byte store at 65534. -/
theorem faultingAccessDoesNothing : Obligations.FaultingAccessDoesNothing := by
  refine ⟨fun i s addr w => takesTrap_of_not_admitted, fun s d m hd => ?_⟩
  have hout : ¬Admitted (dispAddr d 0 s).toInt (Width.bytes .word) := by
    rw [dispAddr, hd]
    decide
  obtain ⟨t, ht, -, -, hmem, -⟩ := takesTrap_of_not_admitted (i := .stw d 0 m) rfl hout
  exact ⟨t, ht, hmem _, hmem _⟩

/-- Which instructions have the divisor zero (R111, R112, R125, R126). -/
theorem divisor_eq_zero_cases {i : Instr} {s : State} (h : divisor i s = some 0) :
    (∃ d, i = .divImm d 0 ∨ i = .modImm d 0) ∨ ∃ d r, (i = .divReg d r ∨ i = .modReg d r) ∧ s.readReg r = 0 := by
  cases i with
  | divImm d m =>
    cases (imm64_eq_zero m).1 (Option.some.inj h)
    exact .inl ⟨d, .inl rfl⟩
  | modImm d m =>
    cases (imm64_eq_zero m).1 (Option.some.inj h)
    exact .inl ⟨d, .inr rfl⟩
  | divReg d r => exact .inr ⟨d, r, .inl rfl, Option.some.inj h⟩
  | modReg d r => exact .inr ⟨d, r, .inr rfl, Option.some.inj h⟩
  | _ => cases h

/-- Settles O38: a zero divisor is the cause of the trap in the table of R200, and its only one. -/
theorem divisionByZeroTraps : Obligations.DivisionByZeroTraps := by
  have trap : ∀ {i : Instr} {s : State}, divisor i s = some 0 → TakesTrap i s .divisionByZero :=
    fun hd => takesTrap_of_ownTrap (r := .divisionByZero) hd
  refine ⟨fun d r s => ⟨trap rfl, trap rfl, fun hr => ⟨trap (congrArg some hr), trap (congrArg some hr)⟩⟩, ?_⟩
  intro i s t hrun h ht
  exact divisor_eq_zero_cases (ownTrap_of_faulted h hrun ht)

/-! ### What an instruction leaves unchanged -/

/-- Settles O25, by the ways an instruction can end: the one register it writes is `writtenReg`. -/
theorem registerIsolation : Obligations.RegisterIsolation := by
  intro i s t h
  refine ⟨fun r hr => ?_, ?_, fun hrun reason ht => ?_⟩
  · rcases exec_next h with
      ⟨-, ⟨d, v, hd, -, ht⟩ | ⟨addr, w, v, -, -, -, -, rfl⟩ | ⟨p, -, -, -, rfl⟩ | ⟨-, rfl⟩⟩ | ⟨q, -, rfl⟩
    · have hne : r ≠ d := fun e => hr (e ▸ hd)
      rcases ht with rfl | ⟨rfl, -⟩ <;> exact readReg_writeReg_other s v hne
    all_goals rfl
  · rcases exec_next h with
      ⟨-, ⟨d, v, -, -, rfl | ⟨rfl, -⟩⟩ | ⟨addr, w, v, -, -, -, -, rfl⟩ | ⟨p, -, -, -, rfl⟩ | ⟨-, rfl⟩⟩ | ⟨q, -, rfl⟩ <;>
      exact ⟨rfl, rfl⟩
  · obtain ⟨u, hu, -, hregs, -⟩ := takesTrap_of_ownTrap (ownTrap_of_faulted h hrun ht)
    cases h.symm.trans hu
    exact hregs

/-- An instruction keeps the memory, or is a store that writes its own access and nothing else. -/
theorem exec_mem_cases {i : Instr} {s t : State} (h : exec i s = .next t) :
    t.mem = s.mem ∨ ∃ addr w v, isStore i = true ∧ memAccess i s = some (addr, w) ∧
      Admitted addr.toInt (Width.bytes w) ∧ t.mem = s.mem.writeLE addr.toInt.toNat v (Width.bytes w) := by
  rcases exec_next h with
    ⟨-, ⟨d, v, -, -, rfl | ⟨rfl, -⟩⟩ | ⟨addr, w, v, -, hst, hacc, hb, rfl⟩ | ⟨p, -, -, -, rfl⟩ | ⟨-, rfl⟩⟩ | ⟨q, -, rfl⟩
  case inl.inr.inl => exact .inr ⟨addr, w, v, hst, hacc, (inBounds_eq_true_iff addr w).1 hb, rfl⟩
  all_goals exact .inl rfl

/-- Settles O26: the memory is kept, or written inside the access only. -/
theorem memoryIsolation : Obligations.MemoryIsolation := by
  intro i s t h
  rcases exec_mem_cases h with hsame | ⟨addr, w, v, hst, hacc, ⟨hlow, -⟩, hmem⟩
  · exact ⟨fun _ a => by rw [hsame], fun _ _ _ a _ => by rw [hsame]⟩
  · refine ⟨fun hno => absurd (hst.symm.trans hno) nofun, fun addr' w' hacc' a ha => ?_⟩
    cases hacc.symm.trans hacc'
    rw [hmem]
    exact readByte_writeLE_outside s.mem _ v (by omega)

/-! ### The invariant -/

/-- A new status other than `Ready` keeps the invariant when it meets its own clause, the one of a halt or of a trap. -/
theorem State.Inv.setStatus {s : State} (h : s.Inv) {st : Status} (hready : st ≠ .ready)
    (hhalted : ∀ c, st = .halted c → c = s.readReg 0)
    (hfaulted : ∀ r, st = .faulted r → r.legal ∧ s.pc < s.prog.length) :
    (s.setStatus st).Inv :=
  ⟨h.memory, h.pcBound, fun hst => absurd hst hready, hhalted, hfaulted⟩

/-- In status `Running` the invariant is about memory and `pc`. -/
theorem inv_of_running {s : State} (hst : s.status = .running) (hmem : s.mem.wf = true)
    (hpc : s.pc ≤ s.prog.length + 32767) : s.Inv where
  memory := hmem
  pcBound := hpc
  ready h := nomatch hst.symm.trans h
  exitCode _ h := nomatch hst.symm.trans h
  reason _ h := nomatch hst.symm.trans h

/-- An instruction leaves the memory in canonical form. -/
theorem exec_keeps_wf {i : Instr} {s t : State} (h : exec i s = .next t) (hmem : s.mem.wf = true) : t.mem.wf = true := by
  rcases exec_mem_cases h with hsame | ⟨addr, w, v, -, -, ⟨hlow, hend⟩, hnew⟩
  · rwa [hsame]
  · rw [hnew]
    exact wf_writeLE hmem _ v (show _ ≤ 65536 by omega)

/-- The farthest an instruction moves `pc` is the farthest jump (R14, R171). -/
theorem exec_pc_le {i : Instr} {s t : State} (h : exec i s = .next t) : t.pc ≤ s.pc + 32768 := by
  rcases exec_next h with
    ⟨-, ⟨d, v, -, -, rfl | ⟨rfl, -⟩⟩ | ⟨addr, w, v, -, -, -, -, rfl⟩ | ⟨p, -, -, hp, rfl⟩ | ⟨-, rfl⟩⟩ | ⟨q, -, rfl⟩
  · exact Nat.add_le_add_left (by omega : 1 ≤ 32768) s.pc
  · exact Nat.add_le_add_left (by omega : 2 ≤ 32768) s.pc
  · exact Nat.add_le_add_left (by omega : 1 ≤ 32768) s.pc
  · exact hp
  · exact Nat.le_add_right s.pc 32768
  · exact Nat.le_add_right s.pc 32768

/-- A halt keeps the invariant: the exit code is `x[0]`. -/
theorem State.Inv.halted {s : State} (h : s.Inv) : (s.setStatus (.halted (s.readReg 0))).Inv := by
  refine h.setStatus nofun ?_ nofun
  rintro c ⟨⟩
  rfl

/-- A trap at a slot of the program, with a legal reason, keeps the invariant. -/
theorem State.Inv.faulted {s : State} (h : s.Inv) {r : Trap} (hr : r.legal) (hpc : s.pc < s.prog.length) :
    (s.setStatus (.faulted r)).Inv := by
  refine h.setStatus nofun nofun ?_
  rintro q ⟨⟩
  exact ⟨hr, hpc⟩

/-- Settles O20, by what a step can be and how the instruction it executes can end: a step that halts or traps changes the
status only, and an instruction that completes keeps the memory's form and moves `pc` from a slot of the program no
farther than a jump reaches. -/
theorem stepKeepsTheInvariant : Obligations.StepKeepsTheInvariant := by
  intro s t hinv h
  cases hrun : s.status.terminal with
  | true =>
    cases (step_of_terminal hrun).symm.trans h
    exact hinv
  | false =>
    rcases step_cases s with ⟨hterm, -⟩ | ⟨-, -, hs⟩ | ⟨sl, e, -, -, -, hs⟩ | ⟨sl, i, -, hsl, -, hs⟩
    · cases hrun.symm.trans hterm
    · cases hs.symm.trans h
      exact hinv.halted
    · cases hs.symm.trans h
      obtain ⟨-, hpc, hlegal⟩ := step_faulted hrun hs rfl
      exact hinv.faulted hlegal hpc
    · have hexec : exec i (s.setStatus .running) = .next t := hs.symm.trans h
      rcases exec_status_cases hexec with ⟨-, hst | ⟨-, rfl⟩⟩ | ⟨r, -, rfl⟩
      · have hslot : s.pc < s.prog.length := (List.getElem?_eq_some_iff.1 hsl).1
        have hfar := exec_pc_le hexec
        rw [setStatus_pc] at hfar
        have hprog : t.prog = s.prog := (exec_keeps_prog hexec).trans (setStatus_prog s .running)
        refine inv_of_running hst (exec_keeps_wf hexec hinv.memory) ?_
        rw [hprog]
        omega
      · exact hinv.halted
      · obtain ⟨-, hpc, hlegal⟩ := step_faulted hrun h rfl
        exact hinv.faulted hlegal hpc

/-- In `Ready`, with all values zero, the invariant holds whatever the program. -/
theorem init_inv (prog : List Slot) (resolver : Option (List Imm)) : (State.init prog resolver).Inv where
  memory := rfl
  pcBound := Nat.zero_le _
  ready _ := ⟨rfl, rfl, readReg_init prog resolver⟩
  exitCode := nofun
  reason := nofun

/-- Settles O21: all three are the initial state of some program. -/
theorem resetMeetsTheInvariant : Obligations.ResetMeetsTheInvariant :=
  ⟨init_inv [] none, init_inv, fun s => init_inv s.prog s.resolver⟩

/-- Settles O54: `EXIT` replaces the status only, by one whose exit code is `x[0]`. -/
theorem exitHalts : Obligations.ExitHalts := fun s =>
  ⟨s.setStatus (.halted (s.readReg 0)), rfl, rfl, onlyStatus_setStatus s _, State.Inv.halted⟩

/-- Any number of steps keeps the invariant. -/
theorem stepsTo_keeps_inv {k : Nat} {s t : State} (h : StepsTo k s t) (hinv : s.Inv) : t.Inv := by
  induction k generalizing s with
  | zero =>
    cases h
    exact hinv
  | succ k ih =>
    obtain ⟨u, hstep, hrest⟩ := h
    exact ih hrest (stepKeepsTheInvariant s u hinv hstep)

/-- Settles O56: the invariant bounds `pc` by the length of the program, which no step changes and `PROG_MAX` bounds. -/
theorem pcOfARunFitsProgMax : Obligations.PcOfARunFitsProgMax := by
  intro m bytes resolver k s t hload hsteps
  obtain ⟨prog, -, haccepted, rfl⟩ := load_eq_ok_iff.1 hload
  have hlen : prog.length ≤ m := acceptsLength_iff.1 haccepted m rfl
  have hprog : t.prog = prog := stepsTo_keeps_prog hsteps
  have hbound := (stepsTo_keeps_inv hsteps (init_inv prog resolver)).pcBound
  rw [hprog] at hbound
  omega

/-- Settles O24: the first step sets `pc` to the target, where the second finds the end of the program. -/
theorem jumpBeyondTheEndHalts : Obligations.JumpBeyondTheEndHalts := by
  intro s sl o hrun hsl hdec hfar
  have hexec := (step_of_decode hrun hsl hdec).trans (exec_of_takenOffset rfl)
  obtain ⟨u, hu⟩ := jumpTo_answers (jumpTarget o (s.setStatus .running)) (s.setStatus .running)
  have htarget : jumpTarget o (s.setStatus .running) = (s.pc : Int) + 1 + o.toInt := rfl
  rcases jumpTo_next hu with ⟨hneg, -⟩ | ⟨-, rfl⟩
  · omega
  · refine ⟨_, ⟨_, hexec.trans hu, _, step_of_end rfl ?_, rfl⟩, rfl, ?_, fun _ => rfl, fun _ => rfl, rfl, rfl⟩
    · show s.prog.length ≤ (jumpTarget o (s.setStatus .running)).toNat
      omega
    · show ((jumpTarget o (s.setStatus .running)).toNat : Int) = _
      omega

end Sys2Proof.Machine
end

section
/-!
PROOF. The results of the ALU64 and byteswap families (spec/41_alu64.md R100 to R128; spec/42_byteswap.md R130 to R137): each
is a shape of Laws/Frames.lean with the value its arithmetic law gives.
-/

namespace Sys2Proof.Machine

/-! ### Move, add, subtract, multiply, negate -/

/-- Settles O34: `updateReg` with the operand. -/
theorem movReplaces : Obligations.MovReplaces := by
  intro d r m s
  refine ⟨writesReg_updateReg (by rw [exec, execMovImm]) ?_,
    writesReg_updateReg (by rw [exec, execMovReg]) ?_⟩
  · exact imm64_toInt m
  · rfl

/-- Settles O35: the signed value of a sum, a difference and a product, an immediate operand being the signed `imm`. -/
theorem addSubMulWrap : Obligations.AddSubMulWrap := by
  intro d r m s
  rw [← imm64_toInt m]
  refine ⟨writesReg_updateReg (by rw [exec, execAddImm]) ?_,
    writesReg_updateReg (by rw [exec, execAddReg]) ?_,
    writesReg_updateReg (by rw [exec, execSubImm]) ?_,
    writesReg_updateReg (by rw [exec, execSubReg]) ?_,
    writesReg_updateReg (by rw [exec, execMulImm]) ?_,
    writesReg_updateReg (by rw [exec, execMulReg]) ?_⟩
  · exact BitVec.toInt_add _ _
  · exact BitVec.toInt_add _ _
  · exact BitVec.toInt_sub
  · exact BitVec.toInt_sub
  · exact BitVec.toInt_mul _ _
  · exact BitVec.toInt_mul _ _

/-- The signed value of `0 -64 a` (R123). -/
theorem zero_sub_toInt (a : Word) : (0 - a).toInt = (-a.toInt).bmod (2 ^ 64) := by
  rw [BitVec.toInt_sub, show (0 : Word).toInt = 0 from rfl, Int.zero_sub]

/-- Settles O40: both forms are `updateReg` with `0 -64 x[d]`. -/
theorem negNegatesTheDestination : Obligations.NegNegatesTheDestination := by
  intro d s
  refine ⟨writesReg_updateReg (by rw [exec, execNegImm]) ?_,
    writesReg_updateReg (by rw [exec, execNegReg]) ?_⟩
  · exact zero_sub_toInt _
  · exact zero_sub_toInt _

/-! ### Divide and remainder -/

/-- Division is signed (D4). -/
theorem div64_toInt (a b : Word) : (div64 a b).toInt = (a.toInt.tdiv b.toInt).bmod (2 ^ 64) :=
  sdiv64_toInt a b

/-- The remainder is signed (D4). -/
theorem mod64_toInt (a b : Word) : (mod64 a b).toInt = a.toInt.tmod b.toInt :=
  srem64_toInt a b

/-- Settles O36: a divisor that is not zero, in either form, is divided by. -/
theorem divTruncatesTowardZero : Obligations.DivTruncatesTowardZero := by
  intro d r m s
  rw [← imm64_toInt m]
  exact ⟨fun hm => writesReg_unlessZero rfl ((imm64_eq_zero m).not.2 hm) (div64_toInt _ _),
    fun hr => writesReg_unlessZero rfl hr (div64_toInt _ _)⟩

/-- A remainder is smaller in magnitude than the divisor (R101). -/
theorem natAbs_mod64_lt (a : Word) {b : Word} (hb : b ≠ 0) : (mod64 a b).toInt.natAbs < b.toInt.natAbs := by
  have hpos : b.toInt ≠ 0 := fun h => hb (BitVec.eq_of_toInt_eq h)
  rw [mod64_toInt, Int.natAbs_tmod]
  exact Nat.mod_lt _ (Int.natAbs_pos.2 hpos)

/-- Settles O37: the remainder by a divisor that is not zero, in either form. -/
theorem modTakesTheDividendsSign : Obligations.ModTakesTheDividendsSign := by
  intro d r m s
  rw [← imm64_toInt m]
  refine ⟨fun hm => ?_, fun hr => writesReg_unlessZero rfl hr ⟨mod64_toInt _ _, natAbs_mod64_lt _ hr⟩⟩
  have hb : imm64 m ≠ 0 := (imm64_eq_zero m).not.2 hm
  exact writesReg_unlessZero rfl hb ⟨mod64_toInt _ _, natAbs_mod64_lt _ hb⟩

/-! ### Or, and, exclusive or -/

/-- Settles O39: the law of each operation on bit `k`, the bits of an immediate operand being those of `imm64_getLsbD`. -/
theorem bitwiseInstructions : Obligations.BitwiseInstructions := by
  intro d r m s
  refine ⟨writesReg_updateReg (by rw [exec, execOrImm]) fun k hk => ?_,
    writesReg_updateReg (by rw [exec, execOrReg]) fun k hk => ?_,
    writesReg_updateReg (by rw [exec, execAndImm]) fun k hk => ?_,
    writesReg_updateReg (by rw [exec, execAndReg]) fun k hk => ?_,
    writesReg_updateReg (by rw [exec, execXorImm]) fun k hk => ?_,
    writesReg_updateReg (by rw [exec, execXorReg]) fun k hk => ?_⟩
  · rw [BitVec.getLsbD_or, imm64_getLsbD m hk]
  · exact BitVec.getLsbD_or
  · rw [BitVec.getLsbD_and, imm64_getLsbD m hk]
  · exact BitVec.getLsbD_and
  · rw [BitVec.getLsbD_xor, imm64_getLsbD m hk]
  · exact BitVec.getLsbD_xor

/-! ### Shifts -/

/-- Settles O41: the value of each shift, by the amount of its operand. -/
theorem shiftsUseTheAmountModulo64 : Obligations.ShiftsUseTheAmountModulo64 := by
  intro d r m s
  rw [← shiftAmount_imm64 m, ← shiftAmount_eq (s.readReg r)]
  refine ⟨writesReg_updateReg (by rw [exec, execLshImm]) ?_,
    writesReg_updateReg (by rw [exec, execLshReg]) ?_,
    writesReg_updateReg (by rw [exec, execRshImm]) ?_,
    writesReg_updateReg (by rw [exec, execRshReg]) ?_,
    writesReg_updateReg (by rw [exec, execArshImm]) ?_,
    writesReg_updateReg (by rw [exec, execArshReg]) ?_⟩
  · exact shiftLeft_toNat _ _
  · exact shiftLeft_toNat _ _
  · exact shiftRight_toNat _ _
  · exact shiftRight_toNat _ _
  · exact shiftRightArith_toInt _ _
  · exact shiftRightArith_toInt _ _

/-! ### Byteswaps -/

/-- `LE64` keeps all 64 bits (R133). -/
theorem truncZext_self (a : Word) : truncZext 64 a = a := by
  rw [truncZext, BitVec.setWidth_eq, BitVec.setWidth_eq]

/-- Settles O42: the three selectors of opcode 0xd4, and the value a truncation leaves. -/
theorem littleEndianSwapsTruncate : Obligations.LittleEndianSwapsTruncate := by
  intro d r o following s
  have hd := regOfField_fieldOfReg d
  have hr := regOfField_fieldOfReg r
  refine ⟨decode_of_recognise rfl hd hr rfl,
    decode_of_recognise rfl hd hr rfl,
    decode_of_recognise rfl hd hr rfl,
    writesReg_updateReg (by rw [exec, execLe16]) ?_,
    writesReg_updateReg (by rw [exec, execLe32]) ?_,
    writesReg_updateReg (by rw [exec, execLe64]) ?_⟩
  · exact truncZext_toNat (by decide) _
  · exact truncZext_toNat (by decide) _
  · exact truncZext_self _

/-- Zero-extending to 64 bits keeps the bytes (R130). -/
theorem byteOf_zeroExtend {n : Nat} (hn : n ≤ 64) (a : BitVec n) (j : Nat) : byteOf (a.setWidth 64) j = byteOf a j := by
  apply BitVec.eq_of_toNat_eq
  rw [toNat_byteOf, toNat_byteOf, BitVec.toNat_setWidth_of_le hn]

/-- A byte above a value is zero. -/
theorem byteOf_above {n : Nat} (a : BitVec n) {j : Nat} (h : n ≤ 8 * j) : byteOf a j = 0 := by
  apply BitVec.eq_of_toNat_eq
  have hlt : a.toNat < 2 ^ (8 * j) := lt_of_lt_of_le a.isLt (Nat.pow_le_pow_right (by decide) h)
  rw [toNat_byteOf, Nat.div_eq_of_lt hlt]
  rfl

/-- The bytes of a reversed 16-bit value (R134). -/
theorem byteOf_byterev16 (v : BitVec 16) {j : Nat} (hj : j < 2) : byteOf (byterev16 v) j = byteOf v (1 - j) := by
  apply BitVec.eq_of_toNat_eq
  rw [toNat_byteOf, byterev16_toNat]
  interval_cases j <;> simp only [Nat.reduceMul, Nat.reducePow, Nat.reduceSub] <;> omega

/-- The bytes of a reversed 32-bit value (R135). -/
theorem byteOf_byterev32 (v : BitVec 32) {j : Nat} (hj : j < 4) : byteOf (byterev32 v) j = byteOf v (3 - j) := by
  apply BitVec.eq_of_toNat_eq
  rw [toNat_byteOf, byterev32_toNat]
  interval_cases j <;> simp only [Nat.reduceMul, Nat.reducePow, Nat.reduceSub] <;> omega

/-- The bytes of a reversed 64-bit value (R136). -/
theorem byteOf_byterev64 (v : BitVec 64) {j : Nat} (hj : j < 8) : byteOf (byterev64 v) j = byteOf v (7 - j) := by
  apply BitVec.eq_of_toNat_eq
  rw [toNat_byteOf, byterev64_toNat]
  interval_cases j <;> simp only [Nat.reduceMul, Nat.reducePow, Nat.reduceSub] <;> omega

/-- Settles O43: the bytes of each reversed value; above it the zero-extended value has no bit. -/
theorem bigEndianSwapsReverseBytes : Obligations.BigEndianSwapsReverseBytes := by
  intro d s
  refine ⟨writesReg_updateReg (by rw [exec, execBe16]) fun j _ => ?_,
    writesReg_updateReg (by rw [exec, execBe32]) fun j _ => ?_,
    writesReg_updateReg (by rw [exec, execBe64]) fun j hj => ?_⟩
  · rw [byteOf_zeroExtend (by decide)]
    split
    next h => rw [byteOf_byterev16 _ h, byteOf_setWidth _ (by omega)]
    next h => exact byteOf_above _ (by omega)
  · rw [byteOf_zeroExtend (by decide)]
    split
    next h => rw [byteOf_byterev32 _ h, byteOf_setWidth _ (by omega)]
    next h => exact byteOf_above _ (by omega)
  · rw [byteOf_zeroExtend (by decide), byteOf_byterev64 _ hj, byteOf_setWidth _ (by omega)]

end Sys2Proof.Machine
end

section
/-!
PROOF. The results of the memory family (spec/43_memory_ops.md R140 to R165; spec/20_memory.md R31): addresses, loads,
stores, and reads after writes of another width.
-/

namespace Sys2Proof.Machine

/-! ### Addresses and `LDDW` -/

/-- Settles O33: the law of each form of address. -/
theorem effectiveAddressesWrap : Obligations.EffectiveAddressesWrap := fun s b o m =>
  ⟨dispAddr_toInt b o s, indAddr_toInt b m s, imm64_toInt m⟩

/-- Settles O44: the value of `wideImm`, with `pc` two slots on. -/
theorem lddwJoinsTwoImmediates : Obligations.LddwJoinsTwoImmediates := fun _ lo hi _ =>
  writesReg_of_next rfl (wideImm_toNat lo hi)

/-! ### Loads -/

/-- Settles O45: four loads at the signed `imm`. -/
theorem loadAbsoluteReadsMemory : Obligations.LoadAbsoluteReadsMemory := fun _ _ _ =>
  ⟨writesReg_loadReg (w := .byte) rfl, writesReg_loadReg (w := .half) rfl, writesReg_loadReg (w := .word) rfl,
    writesReg_loadReg (w := .dword) rfl⟩

/-- Settles O46: four loads at `x[s]` plus the signed `imm`. -/
theorem loadIndirectReadsMemory : Obligations.LoadIndirectReadsMemory := fun _ _ _ _ =>
  ⟨writesReg_loadReg (w := .byte) rfl, writesReg_loadReg (w := .half) rfl, writesReg_loadReg (w := .word) rfl,
    writesReg_loadReg (w := .dword) rfl⟩

/-- Settles O47: four loads at `x[s]` plus the signed offset. -/
theorem loadIndexedReadsMemory : Obligations.LoadIndexedReadsMemory := fun _ _ _ _ =>
  ⟨writesReg_loadReg (w := .byte) rfl, writesReg_loadReg (w := .half) rfl, writesReg_loadReg (w := .word) rfl,
    writesReg_loadReg (w := .dword) rfl⟩

/-! ### Stores -/

/-- Byte `j` of the 64 bits of an integer is its byte `j` (R5). -/
theorem emod_word_byte (x : Int) {j : Nat} (hj : j < 8) : x % 2 ^ 64 / 2 ^ (8 * j) % 256 = x / 2 ^ (8 * j) % 256 := by
  interval_cases j <;> norm_num only <;> omega

/-- Byte `j` of an immediate operand is byte `j` of the signed `imm` (D12). -/
theorem byteOf_imm64 (m : Imm) {j : Nat} (hj : j < 8) : ((byteOf (imm64 m) j).toNat : Int) = m.toInt / 2 ^ (8 * j) % 256 := by
  rw [toNat_byteOf, ← emod_word_byte m.toInt hj, ← imm64_toNat]
  norm_cast

/-- A store of an immediate operand stores the bytes of the signed `imm` (R156, D12). -/
theorem storesBytes_imm {i : Instr} {s : State} {addr : Word} {w : Width} {m : Imm}
    (h : exec i s = storeMem addr w (imm64 m) s) (hmem : s.mem.wf = true) (hb : Admitted addr.toInt (Width.bytes w)) :
    StoresBytes i s addr.toInt (Width.bytes w) fun j => m.toInt / 2 ^ (8 * j) % 256 :=
  storesBytes_storeMem h hmem hb fun _ hj => byteOf_imm64 m (lt_of_lt_of_le hj (width_bytes_le w))

/-- A store of a register stores the bytes of its value (R161, D12). -/
theorem storesBytes_reg {i : Instr} {s : State} {addr : Word} {w : Width} {r : Reg}
    (h : exec i s = storeMem addr w (s.readReg r) s) (hmem : s.mem.wf = true)
    (hb : Admitted addr.toInt (Width.bytes w)) :
    StoresBytes i s addr.toInt (Width.bytes w) fun j => (s.readReg r).toNat / 2 ^ (8 * j) % 256 :=
  storesBytes_storeMem h hmem hb fun j _ => by
    rw [toNat_byteOf]
    norm_cast

/-- Settles O48: four stores of the immediate operand. -/
theorem storeImmediateWritesMemory : Obligations.StoreImmediateWritesMemory := fun _ _ _ _ hmem =>
  ⟨storesBytes_imm (w := .byte) rfl hmem, storesBytes_imm (w := .half) rfl hmem, storesBytes_imm (w := .word) rfl hmem,
    storesBytes_imm (w := .dword) rfl hmem⟩

/-- Settles O49: four stores of a register. -/
theorem storeRegisterWritesMemory : Obligations.StoreRegisterWritesMemory := fun _ _ _ _ hmem =>
  ⟨storesBytes_reg (w := .byte) rfl hmem, storesBytes_reg (w := .half) rfl hmem, storesBytes_reg (w := .word) rfl hmem,
    storesBytes_reg (w := .dword) rfl hmem⟩

/-! ### A read after a write of another width -/

/-- The value of `j + k` bytes is that of the first `j`, with that of the other `k` above it (R31). -/
theorem bytesValue_add (m : Memory) (a j k : Nat) :
    bytesValue m a (j + k) = bytesValue m a j + 2 ^ (8 * j) * bytesValue m (a + j) k := by
  induction k with
  | zero => simp [bytesValue]
  | succ k ih =>
    rw [← Nat.add_assoc, bytesValue_succ, bytesValue_succ, ih, Nat.mul_add 8, pow_add, Nat.add_assoc a]
    ring

/-- Byte `j` of a read is the byte at the `j`-th address (R31, R34). -/
theorem byteOf_readLE (m : Memory) (a : Nat) {n j : Nat} (hn : n ≤ 8) (hj : j < n) :
    byteOf (m.readLE a n) j = m.readByte (a + j) := by
  obtain ⟨k, rfl⟩ := Nat.exists_eq_add_of_le (Nat.succ_le_of_lt hj)
  have hbelow := bytesValue_lt m a j
  have hsplit : bytesValue m a (j + 1 + k) =
      bytesValue m a j + 2 ^ (8 * j) * ((m.readByte (a + j)).toNat + 256 * bytesValue m (a + (j + 1)) k) := by
    rw [bytesValue_add, bytesValue_succ, Nat.mul_succ, pow_add]
    ring
  apply BitVec.eq_of_toNat_eq
  rw [toNat_byteOf, readLE_toNat m a hn, hsplit, Nat.add_mul_div_left _ _ (Nat.two_pow_pos _), Nat.div_eq_of_lt hbelow]
  omega

/-- Above its width a read is zero (R34). -/
theorem byteOf_readLE_above (m : Memory) (a : Nat) {n j : Nat} (hn : n ≤ 8) (hj : n ≤ j) :
    byteOf (m.readLE a n) j = 0 := by
  apply BitVec.eq_of_toNat_eq
  have hlt : bytesValue m a n < 2 ^ (8 * j) :=
    lt_of_lt_of_le (bytesValue_lt m a n) (Nat.pow_le_pow_right (by decide) (by omega))
  rw [toNat_byteOf, readLE_toNat m a hn, Nat.div_eq_of_lt hlt]
  rfl

/-- Two 64-bit values with the same eight bytes are one. -/
theorem eq_of_byteOf_eq {x y : Word} (h : ∀ j < 8, byteOf x j = byteOf y j) : x = y := by
  apply BitVec.eq_of_getLsbD_eq
  intro k hk
  have hbit := congrArg (fun b : Byte => b.getLsbD (k % 8)) (h (k / 8) (by omega))
  simp only [byteOf, BitVec.getLsbD_extractLsb', Nat.mod_lt k (by decide : 0 < 8), decide_true, Bool.true_and,
    Nat.div_add_mod] at hbit
  exact hbit

/-- The memory of an admitted write, byte by byte: those of the access hold the value, the others are as before (R35). -/
theorem readByte_after_memWrite {m m' : Memory} {addr v : Word} {w : Width} (hm : m.wf = true)
    (h : memWrite m addr w v = .ok m') {p : Int} (hp : 0 ≤ p) :
    m'.readByte p.toNat = if addr.toInt ≤ p ∧ p < addr.toInt + Width.bytes w then byteOf v (p - addr.toInt).toNat
      else m.readByte p.toNat := by
  obtain ⟨hlow, hend⟩ : Admitted addr.toInt (Width.bytes w) := exists_memWrite_eq_ok_iff.1 ⟨m', h⟩
  cases (memWrite_of_admitted ⟨hlow, hend⟩).symm.trans h
  split
  next hin =>
    have hplace : p.toNat = addr.toInt.toNat + (p - addr.toInt).toNat := by omega
    rw [hplace]
    exact readByte_writeLE_inside hm _ v (show _ ≤ 65536 by omega) (by omega)
  next hout => exact readByte_writeLE_outside m _ v (by omega)

/-- A read of any width after a write of any width, byte by byte (R31). -/
theorem memRead_after_memWrite {m m' : Memory} {a b v : Word} {wa wb : Width} (hm : m.wf = true)
    (h : memWrite m a wa v = .ok m') (hb : Admitted b.toInt (Width.bytes wb)) :
    ∃ x, memRead m' b wb = .ok x ∧
      (∀ j : Nat, j < Width.bytes wb → byteOf x j =
        if a.toInt ≤ b.toInt + j ∧ b.toInt + j < a.toInt + Width.bytes wa then byteOf v (b.toInt + j - a.toInt).toNat
        else m.readByte (b.toInt + j).toNat) ∧
      ∀ j : Nat, Width.bytes wb ≤ j → byteOf x j = 0 := by
  refine ⟨_, memRead_of_admitted hb, fun j hj => ?_, fun j => byteOf_readLE_above m' _ (width_bytes_le wb)⟩
  obtain ⟨hlow, -⟩ := hb
  rw [byteOf_readLE m' _ (width_bytes_le wb) hj, ← readByte_after_memWrite hm h (by omega)]
  congr 1
  omega

/-- Settles O32: the bytes of the read; in the rule's example the two bytes read are those of 0x5566. -/
theorem mixedWidthAccessSeesBytes : Obligations.MixedWidthAccessSeesBytes := by
  refine ⟨fun m m' a b v wa wb => memRead_after_memWrite, fun m m' hm h => ?_⟩
  have hb : Admitted (18 : Word).toInt (Width.bytes .half) := by decide
  obtain ⟨x, hx, hbytes, habove⟩ := memRead_after_memWrite hm h hb
  have hvalue : x = 0x5566 := by
    refine eq_of_byteOf_eq fun j hj => ?_
    match j with
    | 0 => exact hbytes 0 (by decide)
    | 1 => exact hbytes 1 (by decide)
    | j + 2 =>
      have hupper : j < 6 := by omega
      rw [habove (j + 2) (Nat.le_add_left 2 j)]
      interval_cases j <;> rfl
  rw [hx, hvalue]

end Sys2Proof.Machine
end

section
/-!
PROOF. The branch family (spec/44_branch_call_exit.md R170 to R195).
-/

namespace Sys2Proof.Machine

/-! ### Jumps -/

/-- Settles O50: `JA` is `jumpTo`, whose target is below 0 or not. -/
theorem jumpAlways : Obligations.JumpAlways := fun _ _ => ⟨goesTo_jumpTo rfl, takesTrap_jumpTo rfl⟩

section
variable {a b : Word} {m : Imm}

/-- `JEQ` with an immediate compares signed values, which is to compare all bits (R173). -/
theorem condEq_imm_iff : condEq a (imm64 m) = true ↔ a.toInt = m.toInt := by
  rw [condEq, decide_eq_true_iff, ← BitVec.toInt_inj, imm64_toInt]

/-- `JNE` with an immediate (R185). -/
theorem condNe_imm_iff : condNe a (imm64 m) = true ↔ a.toInt ≠ m.toInt := by
  rw [condNe, decide_eq_true_iff, ne_eq, ← BitVec.toInt_inj, imm64_toInt]

/-- `JGT` with an immediate compares with the sign-extended `imm` read as unsigned (R175). -/
theorem condGt_imm_iff : condGt a (imm64 m) = true ↔ (a.toNat : Int) > m.toInt % 2 ^ 64 := by
  rw [condGt, decide_eq_true_iff, ← imm64_toNat, gt_iff_lt, gt_iff_lt, Nat.cast_lt]

/-- `JGE` with an immediate (R177). -/
theorem condGe_imm_iff : condGe a (imm64 m) = true ↔ (a.toNat : Int) ≥ m.toInt % 2 ^ 64 := by
  rw [condGe, decide_eq_true_iff, ← imm64_toNat, ge_iff_le, ge_iff_le, Nat.cast_le]

/-- `JLT` with an immediate (R179). -/
theorem condLt_imm_iff : condLt a (imm64 m) = true ↔ (a.toNat : Int) < m.toInt % 2 ^ 64 := by
  rw [condLt, decide_eq_true_iff, ← imm64_toNat, Nat.cast_lt]

/-- `JLE` with an immediate (R181). -/
theorem condLe_imm_iff : condLe a (imm64 m) = true ↔ (a.toNat : Int) ≤ m.toInt % 2 ^ 64 := by
  rw [condLe, decide_eq_true_iff, ← imm64_toNat, Nat.cast_le]

/-- `JSET` asks for a bit that is set in both values (R183, R184). -/
theorem condSet_iff : condSet a b = true ↔ ∃ k, k < 64 ∧ a.getLsbD k = true ∧ b.getLsbD k = true := by
  rw [condSet, decide_eq_true_iff]
  constructor
  · intro hne
    by_contra hno
    refine hne (BitVec.eq_of_getLsbD_eq fun k hk => ?_)
    rw [BitVec.getLsbD_and, BitVec.ofNat_eq_ofNat, BitVec.getLsbD_zero, Bool.and_eq_false_imp]
    exact fun ha => Bool.eq_false_iff.2 fun hb => hno ⟨k, hk, ha, hb⟩
  · rintro ⟨k, -, ha, hb⟩ hzero
    have hbit := congrArg (fun v : Word => v.getLsbD k) hzero
    simp [ha, hb] at hbit

/-- `JSET` with an immediate, whose bits above 31 are its bit 31 (R183). -/
theorem condSet_imm_iff :
    condSet a (imm64 m) = true ↔ ∃ k, k < 64 ∧ a.getLsbD k = true ∧ m.getLsbD (min k 31) = true := by
  rw [condSet_iff]
  refine exists_congr fun k => and_congr_right fun hk => ?_
  rw [imm64_getLsbD m hk]

/-- `JSGT` with an immediate (R187). -/
theorem condSgt_imm_iff : condSgt a (imm64 m) = true ↔ a.toInt > m.toInt := by
  rw [condSgt, decide_eq_true_iff, imm64_toInt]

/-- `JSGE` with an immediate (R189). -/
theorem condSge_imm_iff : condSge a (imm64 m) = true ↔ a.toInt ≥ m.toInt := by
  rw [condSge, decide_eq_true_iff, imm64_toInt]

/-- `JSLT` with an immediate (R191). -/
theorem condSlt_imm_iff : condSlt a (imm64 m) = true ↔ a.toInt < m.toInt := by
  rw [condSlt, decide_eq_true_iff, imm64_toInt]

/-- `JSLE` with an immediate (R193). -/
theorem condSle_imm_iff : condSle a (imm64 m) = true ↔ a.toInt ≤ m.toInt := by
  rw [condSle, decide_eq_true_iff, imm64_toInt]

end

/-- Settles O51: each jump is `jumpIf` on its condition, a register operand's being the relation itself. -/
theorem unsignedJumps : Obligations.UnsignedJumps := fun _ _ _ _ _ =>
  ⟨jumpsOn_jumpIf rfl condEq_imm_iff, jumpsOn_jumpIf rfl decide_eq_true_iff,
    jumpsOn_jumpIf rfl condNe_imm_iff, jumpsOn_jumpIf rfl decide_eq_true_iff,
    jumpsOn_jumpIf rfl condGt_imm_iff, jumpsOn_jumpIf rfl decide_eq_true_iff,
    jumpsOn_jumpIf rfl condGe_imm_iff, jumpsOn_jumpIf rfl decide_eq_true_iff,
    jumpsOn_jumpIf rfl condLt_imm_iff, jumpsOn_jumpIf rfl decide_eq_true_iff,
    jumpsOn_jumpIf rfl condLe_imm_iff, jumpsOn_jumpIf rfl decide_eq_true_iff,
    jumpsOn_jumpIf rfl condSet_imm_iff, jumpsOn_jumpIf rfl condSet_iff⟩

/-- Settles O52: each jump is `jumpIf` on its condition, a register operand's being the relation itself. -/
theorem signedJumps : Obligations.SignedJumps := fun _ _ _ _ _ =>
  ⟨jumpsOn_jumpIf rfl condSgt_imm_iff, jumpsOn_jumpIf rfl decide_eq_true_iff,
    jumpsOn_jumpIf rfl condSge_imm_iff, jumpsOn_jumpIf rfl decide_eq_true_iff,
    jumpsOn_jumpIf rfl condSlt_imm_iff, jumpsOn_jumpIf rfl decide_eq_true_iff,
    jumpsOn_jumpIf rfl condSle_imm_iff, jumpsOn_jumpIf rfl decide_eq_true_iff⟩

/-! ### Calls -/

/-- A call that the resolver answers writes the answer to `x[0]` (R195, D15). -/
theorem exec_call_of_resolved {m : Imm} {s : State} {ids : List Imm} (hids : s.resolver = some ids) (hm : m ∈ ids) :
    exec (.call m) s = updateReg 0 (fun _ => Config.callResult m s.regs) s := by
  rw [exec, execCall, hids]
  exact if_pos hm

/-- Settles O53: the two answers of a call. -/
theorem callAsksTheResolver : Obligations.CallAsksTheResolver := fun _ _ =>
  ⟨fun _ hids hm => writesReg_updateReg (exec_call_of_resolved hids hm) rfl,
    fun hun => takesTrap_raiseTrap (exec_call_of_unresolved hun)⟩

/-! ### Registers an instruction does not name -/

section
variable {s t : State} {r d : Reg} {v : Word}

/-- Two registers may be written in either order. -/
theorem writeReg_comm (s : State) (h : r ≠ d) (v w : Word) : (s.writeReg r v).writeReg d w = (s.writeReg d w).writeReg r v := by
  have hne : r.val ≠ d.val := fun e => h (Fin.ext e)
  simp only [State.writeReg]
  rw [Vector.set_comm _ _ hne]

/-- A trap leaves the other value of `x[r]` where it was. -/
theorem raiseTrap_writeReg {reason : Trap} (h : raiseTrap reason s = .next t) :
    raiseTrap reason (s.writeReg r v) = .next (t.writeReg r v) := by
  obtain rfl := raiseTrap_next.1 h
  rfl

/-- A write to another register, of a value that does not depend on `x[r]`. -/
theorem advance_writeReg {x x' : Word} {n : Nat} (hd : r ≠ d) (hx : x' = x) :
    (Host.Outcome.next (((s.writeReg r v).writeReg d x').advance n) : Result) =
      .next (((s.writeReg d x).advance n).writeReg r v) := by
  rw [hx, writeReg_comm s hd]
  rfl

/-- `updateReg` on another register, by a function that does not depend on `x[r]`. -/
theorem updateReg_writeReg {f : Word → Word} (hd : r ≠ d) (h : updateReg d f s = .next t) :
    updateReg d f (s.writeReg r v) = .next (t.writeReg r v) := by
  obtain rfl := updateReg_next.1 h
  exact advance_writeReg hd (congrArg f (readReg_writeReg_other s v hd.symm))

/-- `updateRegUnlessZero` on another register, with an operand that does not depend on `x[r]`. -/
theorem updateRegUnlessZero_writeReg {f : Word → Word → Word} {b c : Word} (hd : r ≠ d) (hbc : c = b)
    (h : updateRegUnlessZero d f b s = .next t) : updateRegUnlessZero d f c (s.writeReg r v) = .next (t.writeReg r v) := by
  subst hbc
  by_cases hc : c = 0
  · rw [updateRegUnlessZero, if_pos hc] at h ⊢
    exact raiseTrap_writeReg h
  · rw [updateRegUnlessZero, if_neg hc] at h ⊢
    exact updateReg_writeReg hd h

/-- A load to another register, from an address that does not depend on `x[r]`. -/
theorem loadReg_writeReg {addr addr' : Word} {w : Width} (hd : r ≠ d) (haddr : addr' = addr)
    (h : loadReg d addr w s = .next t) : loadReg d addr' w (s.writeReg r v) = .next (t.writeReg r v) := by
  subst haddr
  rcases memRead_cases s.mem addr' w with ⟨-, hread⟩ | ⟨-, hread⟩
  · rw [loadReg, writeReg_mem, hread]
    rw [loadReg, hread] at h
    exact updateReg_writeReg hd h
  · rw [loadReg, writeReg_mem, hread]
    rw [loadReg, hread] at h
    exact raiseTrap_writeReg h

/-- A store of a value to an address, neither of which depends on `x[r]`. -/
theorem storeMem_writeReg {addr addr' x x' : Word} {w : Width} (haddr : addr' = addr) (hx : x' = x)
    (h : storeMem addr w x s = .next t) : storeMem addr' w x' (s.writeReg r v) = .next (t.writeReg r v) := by
  subst haddr hx
  rcases memWrite_cases s.mem addr' w x' with ⟨-, hwrite⟩ | ⟨-, hwrite⟩
  · rw [storeMem, writeReg_mem, hwrite]
    rw [storeMem, hwrite] at h
    cases h
    rfl
  · rw [storeMem, writeReg_mem, hwrite]
    rw [storeMem, hwrite] at h
    exact raiseTrap_writeReg h

/-- A jump does not look at registers. -/
theorem jumpTo_writeReg {target : Int} (h : jumpTo target s = .next t) :
    jumpTo target (s.writeReg r v) = .next (t.writeReg r v) := by
  rcases jumpTo_next h with ⟨hneg, rfl⟩ | ⟨hpos, rfl⟩
  · exact if_pos hneg
  · exact if_neg (by omega)

/-- A conditional jump on a condition that does not depend on `x[r]`. -/
theorem jumpIf_writeReg {taken taken' : Bool} {o : Off} (hc : taken' = taken) (h : jumpIf taken o s = .next t) :
    jumpIf taken' o (s.writeReg r v) = .next (t.writeReg r v) := by
  subst hc
  cases taken' with
  | true => exact jumpTo_writeReg h
  | false =>
    cases h
    rfl

end

/-- Settles O27, by the shapes: every register operand is another register than `r`, so it reads alike. -/
theorem untouchedRegistersDoNotMatter : Obligations.UntouchedRegistersDoNotMatter := by
  intro i s t r v hr h
  have same : ∀ {q : Reg}, r ≠ q → (s.writeReg r v).readReg q = s.readReg q := fun hq => readReg_writeReg_other s v hq.symm
  have pair : ∀ {d q : Reg}, r ∉ [d, q] → r ≠ d ∧ r ≠ q := fun hno =>
    ⟨List.ne_of_not_mem_cons hno, List.ne_of_not_mem_cons (List.not_mem_of_not_mem_cons hno)⟩
  cases i with
  | movImm d | addImm d | subImm d | mulImm d | orImm d | andImm d | lshImm d | rshImm d | arshImm d | xorImm d | negImm d
  | negReg d | le16 d | le32 d | le64 d | be16 d | be32 d | be64 d | lddw d =>
    have hd : r ≠ d := List.ne_of_not_mem_cons hr
    cases h
    exact advance_writeReg hd (by simp only [same hd])
  | movReg d q | addReg d q | subReg d q | mulReg d q | orReg d q | andReg d q | lshReg d q | rshReg d q | arshReg d q
  | xorReg d q =>
    obtain ⟨hd, hq⟩ := pair hr
    cases h
    exact advance_writeReg hd (by simp only [same hd, same hq])
  | divImm | modImm => exact updateRegUnlessZero_writeReg (List.ne_of_not_mem_cons hr) rfl h
  | divReg d q | modReg d q =>
    obtain ⟨hd, hq⟩ := pair hr
    exact updateRegUnlessZero_writeReg hd (same hq) h
  | ldabsb | ldabsh | ldabsw | ldabsdw => exact loadReg_writeReg (List.ne_of_not_mem_cons hr) rfl h
  | ldindb d q | ldindh d q | ldindw d q | ldinddw d q | ldxb d q | ldxh d q | ldxw d q | ldxdw d q =>
    obtain ⟨hd, hq⟩ := pair hr
    exact loadReg_writeReg hd (congrArg (· + _) (same hq)) h
  | stb | sth | stw | stdw =>
    exact storeMem_writeReg (congrArg (· + _) (same (List.ne_of_not_mem_cons hr))) rfl h
  | stxb d q | stxh d q | stxw d q | stxdw d q =>
    obtain ⟨hd, hq⟩ := pair hr
    exact storeMem_writeReg (congrArg (· + _) (same hd)) (same hq) h
  | ja => exact jumpTo_writeReg h
  | jeqImm | jgtImm | jgeImm | jltImm | jleImm | jsetImm | jneImm | jsgtImm | jsgeImm | jsltImm | jsleImm =>
    exact jumpIf_writeReg (by rw [same (List.ne_of_not_mem_cons hr)]) h
  | jeqReg d q | jgtReg d q | jgeReg d q | jltReg d q | jleReg d q | jsetReg d q | jneReg d q | jsgtReg d q | jsgeReg d q
  | jsltReg d q | jsleReg d q =>
    obtain ⟨hd, hq⟩ := pair hr
    exact jumpIf_writeReg (by rw [same hd, same hq]) h
  | call => exact absurd (List.mem_finRange r) hr
  | exit =>
    cases h
    rw [exec, execExit, same (List.ne_of_not_mem_cons hr)]
    rfl

end Sys2Proof.Machine
end
